-- ==== Sys2Proof/Word.lean ====
section
/-!
DEFINITION. The word type of the core: every register, memory cell, opcode and operand is an unsigned byte
(00_scope.md R5 `XLEN`, R7; 10_state.md R20, R30).
-/

namespace Sys2Proof

/-- XLEN = 8: an unsigned byte, 0..255 (00_scope.md R5, R7). -/
abbrev Byte := BitVec 8

end Sys2Proof
end

