-- ==== Sys2Proof/Config.lean ====
section
/-!
DEFINITION. The implementation parameters of 00_scope.md R5 and the values this hardware takes.
The spec leaves no instruction result undefined (93_implementation_defined.md section 1), so there is no free value here.
-/

namespace Sys2Proof

/-- NREG: the number of general registers, with indices 0..7 (00_scope.md R5, 10_state.md R20). -/
abbrev Config.nReg : Nat := 8

/-- SP_INDEX: the register used as stack pointer (00_scope.md R5, 10_state.md R21). -/
def Config.spIndex : Byte := 7

/-- The parameters of 00_scope.md R5 that are not fixed widths. They are fixed for one machine: no step changes them
(assumption log 3). `memInit` lists the cells that hold a value before any load; an unlisted cell is unwritten. -/
structure Params where
  /-- MEM_SIZE, the number of memory cells. -/
  memSize : Nat
  /-- SP_INIT, the reset value of register 7. -/
  spInit  : Byte
  /-- REG_INIT, the reset contents of R0..R6. -/
  regInit : Vector Byte 7
  /-- MEM_INIT, the contents of the cells the load does not write. -/
  memInit : List Host.Cell
  deriving DecidableEq, Repr

/-- The values this hardware takes (00_scope.md R5): MEM_SIZE = 256 and SP_INIT = 244 are the spec's defaults, and
MEM_INIT is the spec's default, every cell unwritten (assumption log 2). REG_INIT is OPEN in the spec:
DESIGN CHOICE zero in R0..R6, unsafe (assumption log 1). -/
def Config.reference : Params :=
  { memSize := 256, spInit := 244, regInit := Vector.replicate 7 0, memInit := [] }

end Sys2Proof
end

