-- ==== Sys2Proof/Machine/State.lean ====
section
/-!
DEFINITION. The state of the core as plain data (10_state.md, the CoreState record), the reasons a step has no next
state, and the state after reset (10_state.md R33).
-/

namespace Sys2Proof.Machine

/-- Memory: the cells that hold a byte, as (address, byte) pairs in rising order of address. What an unlisted address
reads as is `Memory.unlisted`, and the canonical form is `Memory.wf` (Machine/Ops.lean). -/
abbrev Memory := List Host.Cell

/-- The flags register FL: the reset value NONE and the three outcomes of COMPARE (10_state.md R26; 90_conflicts.md C4). -/
inductive Flag where
  | none | eq | lt | gt
  deriving DecidableEq, Repr

/-- The kind of a memory access, recorded in MemOutOfBounds (00_scope.md R10). -/
inductive AccessKind where
  | fetch | operandFetch | stackRead | stackWrite
  deriving DecidableEq, Repr

/-- A fault cause together with the information it records (60_exceptions.md R142). -/
inductive Cause where
  /-- The opcode byte is none of the fourteen (R143). -/
  | decodeError (op : Byte)
  /-- An access at or above MEM_SIZE (R144). -/
  | memOutOfBounds (kind : AccessKind) (addr : Nat)
  /-- PUSH or CALL with SP = 0; records SP (43_stack.md R108). -/
  | stackOverflow (sp : Byte)
  /-- POP or RETURN with SP at or above SP_INIT, or POP R7 of the byte 255; records SP before (43_stack.md R109). -/
  | stackUnderflow (sp : Byte)
  /-- MODULO with x[b] = 0; records the register index b (41_alu.md R94). -/
  | divideByZero (b : Byte)
  /-- An access through an index of 8 or more; records the index (00_scope.md R9). -/
  | badRegister (index : Byte)
  /-- CALL with P + 2 above 255; records P + 2 (44_call_return.md R117). -/
  | returnAddressOverflow (ret : Nat)
  deriving DecidableEq, Repr

/-- The status of the core (10_state.md R27); `faulted` holds the fault record (R32). -/
inductive Status where
  | running
  | halted
  | faulted (cause : Cause) (pc : Nat)
  | cancelled
  deriving DecidableEq, Repr

/-- Why the model has no next state. The faults of the hardware (60_exceptions.md R142) are not here: they are
next states whose status is `faulted` (assumption log 4). -/
inductive Fault where
  /-- Raised by an access to a memory cell below MEM_SIZE that holds no byte (ReadUnwritten, a fault of the model and
  not of the hardware, 60_exceptions.md R147): by the fetch of an opcode or operand byte, by POP and by RETURN. Safe. -/
  | readUnwritten (addr : Nat)
  /-- Raised by `step` alone, in a state whose status is not Running: "the core has no step"
  (40_execution_loop.md R75). Safe. -/
  | notRunning (status : Status)
  deriving DecidableEq, Repr

/-- Why the model gives no meaning to an instruction. -/
inductive Refusal where
  /-- Raised by an arm of `exec` for an instruction without a meaning yet; every instruction has one, so no arm raises
  it. Safe. -/
  | notModelled (mnemonic : String)
  deriving DecidableEq, Repr

/-- The state of the core: the seven fields of 10_state.md's CoreState record, the machine's parameters, and the host's
cancellation request. -/
structure State where
  /-- The parameters of 00_scope.md R5; no step writes them (assumption log 3). -/
  params          : Params
  /-- The registers R0..R7; R7 is the stack pointer (10_state.md R20, R21). -/
  reg             : Vector Byte 8
  /-- The program counter, never reduced (10_state.md R24, R25). -/
  pc              : Nat
  /-- The flags register (10_state.md R26). -/
  fl              : Flag
  /-- The memory (10_state.md R30). -/
  mem             : Memory
  /-- The status and the fault record (10_state.md R27, R32). -/
  status          : Status
  /-- Whether a step has been taken since reset (10_state.md R36). -/
  started         : Bool
  /-- The bytes emitted by PRINT-REGISTER so far, oldest first (10_state.md R31). -/
  out             : List Byte
  /-- The host's cancellation request, sampled once per step (60_exceptions.md R154; assumption log 6). -/
  cancelRequested : Bool
  deriving DecidableEq, Repr

/-- The state that reset establishes on a machine with parameters `p` (10_state.md R33, 70_reset_and_hazards.md R165). -/
def State.resetWith (p : Params) : State :=
  { params := p
    reg := p.regInit.push p.spInit
    pc := 0
    fl := .none
    mem := p.memInit
    status := .running
    started := false
    out := []
    cancelRequested := false }

/-- The machine right after reset, with the parameters this hardware takes. R0..R6 are zero by DESIGN CHOICE, unsafe
(assumption log 1), and `cancelRequested` is false by DESIGN CHOICE, unsafe (assumption log 6). -/
def State.reset : State := State.resetWith Config.reference

end Sys2Proof.Machine
end

