-- ==== Sys2Proof/Machine/Flags.lean ====
section
/-!
DEFINITION. The flags register: the compare function and the byte view of FL.
-/

namespace Sys2Proof.Machine

/-- `CompareFlag(va, vb)`: equality first, then the unsigned order (41_alu.md R95). -/
def compareFlag (va vb : Byte) : Flag :=
  if va = vb then .eq else if va.toNat < vb.toNat then .lt else .gt

/-- The byte view of FL for a host's debug read (10_state.md R26). PRESUMED, safe: the spec takes it from general
knowledge, and no instruction reads it (assumption log 8). -/
def flagByte : Flag → Byte
  | .none => 0x00
  | .eq => 0x01
  | .gt => 0x02
  | .lt => 0x04

/-- The only test any instruction makes of FL (10_state.md R28). -/
def flagIsEqual (f : Flag) : Bool := f == .eq

end Sys2Proof.Machine
end

