-- ==== Sys2Proof/Machine/Alu.lean ====
section
/-!
DEFINITION. The ALU: a pure function of an operator tag and two bytes (41_alu.md R90).
-/

namespace Sys2Proof.Machine

/-- The operator tags (41_alu.md R90). -/
inductive AluTag where
  | add | mul | mod | cmp
  deriving DecidableEq, Repr

/-- What the ALU gives: a byte for a register, a flag for FL, or DivideByZero. -/
inductive AluResult where
  | value (v : Byte)
  | flag (f : Flag)
  | divideByZero
  deriving DecidableEq, Repr

/-- `(va + vb) mod 256` on mathematical integers (00_scope.md R8). -/
def add8 (va vb : Byte) : Byte := BitVec.ofNat 8 ((va.toNat + vb.toNat) % 256)

/-- `(va * vb) mod 256` on mathematical integers (00_scope.md R8, 41_alu.md R91). -/
def mul8 (va vb : Byte) : Byte := BitVec.ofNat 8 ((va.toNat * vb.toNat) % 256)

/-- `va mod vb`, the unsigned remainder, for vb other than 0 (00_scope.md R8). -/
def mod8 (va vb : Byte) : Byte := BitVec.ofNat 8 (va.toNat % vb.toNat)

/-- `ALU(tag, va, vb)` (41_alu.md R90). -/
def alu (tag : AluTag) (va vb : Byte) : AluResult :=
  match tag with
  | .add => .value (add8 va vb)
  | .mul => .value (mul8 va vb)
  | .mod => if vb = 0 then .divideByZero else .value (mod8 va vb)
  | .cmp => .flag (compareFlag va vb)

end Sys2Proof.Machine
end

