-- ==== Sys2Proof/Syntax.lean ====
section
/-!
DEFINITION. The fourteen instructions of spec/opcode_table.json, one constructor a row (00_scope.md R2,
30_encoding.md R63). `a` and `b` are the operand bytes A and B taken whole (30_encoding.md R62, R65): a register index,
of which 8..255 name no register and fault only where they are accessed (R74), or the immediate of LOAD-IMMEDIATE.
-/

namespace Sys2Proof

inductive Instr where
  /-- HALT, format Z (40_execution_loop.md R85). -/
  | halt
  /-- LOAD-IMMEDIATE a, imm, format RI (42_data_output.md R100). -/
  | loadImmediate (a imm : Byte)
  /-- PRINT-REGISTER a, format R (42_data_output.md R101). -/
  | printRegister (a : Byte)
  /-- MULTIPLY a, b, format RR (41_alu.md R93). -/
  | multiply (a b : Byte)
  /-- ADD a, b, format RR (41_alu.md R92). -/
  | add (a b : Byte)
  /-- MODULO a, b, format RR (41_alu.md R94). -/
  | modulo (a b : Byte)
  /-- PUSH a, format R (43_stack.md R106). -/
  | push (a : Byte)
  /-- POP a, format R (43_stack.md R107). -/
  | pop (a : Byte)
  /-- CALL a, format R (44_call_return.md R115). -/
  | call (a : Byte)
  /-- RETURN, format Z (44_call_return.md R116). -/
  | ret
  /-- COMPARE a, b, format RR (45_compare_branch.md R125). -/
  | compare (a b : Byte)
  /-- JUMP a, format R (45_compare_branch.md R126). -/
  | jump (a : Byte)
  /-- JUMP-IF-EQUAL a, format R (45_compare_branch.md R127). -/
  | jumpIfEqual (a : Byte)
  /-- JUMP-IF-NOT-EQUAL a, format R (45_compare_branch.md R128). -/
  | jumpIfNotEqual (a : Byte)
  deriving DecidableEq, Repr

end Sys2Proof
end

