-- ==== Sys2Proof/Decode.lean ====
section
/-!
DEFINITION. The decoder, the dispatch, the assembly of operands, and the encoder (30_encoding.md).
-/

namespace Sys2Proof

/-! ## The opcode byte (30_encoding.md section 2) -/

/-- `n = op[7:6]`, the number of operand bytes (30_encoding.md R57). -/
def operandCount (op : Byte) : Nat := (op.extractLsb' 6 2).toNat

/-- `sets_pc = op[4]` (30_encoding.md R58; 90_conflicts.md C1 takes bit 4, not bit 5). -/
def setsPc (op : Byte) : Bool := op.getLsbD 4

/-- `alu = op[5]` (30_encoding.md R59). -/
def aluBit (op : Byte) : Bool := op.getLsbD 5

/-- What the decoder reads from an opcode byte (30_encoding.md R61). -/
structure OpcodeBits where
  n      : Nat
  setsPc : Bool
  alu    : Bool
  deriving DecidableEq, Repr

/-- `Decode(op)`: a pure function, defined for all 256 values (30_encoding.md R61). -/
def opcodeBits (op : Byte) : OpcodeBits := ⟨operandCount op, setsPc op, aluBit op⟩

/-! ## Dispatch (30_encoding.md section 4) -/

/-- The fourteen operation variants (30_encoding.md R63). -/
inductive Variant where
  | halt | loadImmediate | printRegister | multiply | add | modulo | push | pop | call | ret | compare
  | jump | jumpIfEqual | jumpIfNotEqual
  deriving DecidableEq, Repr

/-- A row of the opcode table of 30_encoding.md R63. -/
structure OpcodeRow where
  code    : Byte
  variant : Variant
  n       : Nat
  setsPc  : Bool
  alu     : Bool
  deriving DecidableEq, Repr

/-- The opcode table of 30_encoding.md R63, rows and columns in its order. -/
def opcodeTable : List OpcodeRow :=
  [ ⟨0b00000001, .halt,           0, false, false⟩,
    ⟨0b10000010, .loadImmediate,  2, false, false⟩,
    ⟨0b01000111, .printRegister,  1, false, false⟩,
    ⟨0b10100010, .multiply,       2, false, true⟩,
    ⟨0b10100000, .add,            2, false, true⟩,
    ⟨0b10100100, .modulo,         2, false, true⟩,
    ⟨0b01000101, .push,           1, false, false⟩,
    ⟨0b01000110, .pop,            1, false, false⟩,
    ⟨0b01010000, .call,           1, true,  false⟩,
    ⟨0b00010001, .ret,            0, true,  false⟩,
    ⟨0b10100111, .compare,        2, false, true⟩,
    ⟨0b01010100, .jump,           1, true,  false⟩,
    ⟨0b01010101, .jumpIfEqual,    1, true,  false⟩,
    ⟨0b01010110, .jumpIfNotEqual, 1, true,  false⟩ ]

/-- The dispatch multiplexer: the full opcode byte selects a variant, or none for Unknown (30_encoding.md R63, R67). -/
def dispatch (op : Byte) : Option Variant := (opcodeTable.find? (·.code == op)).map (·.variant)

/-- The opcode byte of a variant (30_encoding.md R63, column hex). -/
def Variant.opcode : Variant → Byte
  | .halt => 0x01
  | .loadImmediate => 0x82
  | .printRegister => 0x47
  | .multiply => 0xA2
  | .add => 0xA0
  | .modulo => 0xA4
  | .push => 0x45
  | .pop => 0x46
  | .call => 0x50
  | .ret => 0x11
  | .compare => 0xA7
  | .jump => 0x54
  | .jumpIfEqual => 0x55
  | .jumpIfNotEqual => 0x56

/-- The variant an instruction belongs to. -/
def Instr.variant : Instr → Variant
  | .halt => .halt
  | .loadImmediate _ _ => .loadImmediate
  | .printRegister _ => .printRegister
  | .multiply _ _ => .multiply
  | .add _ _ => .add
  | .modulo _ _ => .modulo
  | .push _ => .push
  | .pop _ => .pop
  | .call _ => .call
  | .ret => .ret
  | .compare _ _ => .compare
  | .jump _ => .jump
  | .jumpIfEqual _ => .jumpIfEqual
  | .jumpIfNotEqual _ => .jumpIfNotEqual

/-- The instruction of a variant with operand bytes A and B; an operand the variant does not declare is ignored
(30_encoding.md R62, R64, R68). -/
def assemble (v : Variant) (a b : Byte) : Instr :=
  match v with
  | .halt => .halt
  | .loadImmediate => .loadImmediate a b
  | .printRegister => .printRegister a
  | .multiply => .multiply a b
  | .add => .add a b
  | .modulo => .modulo a b
  | .push => .push a
  | .pop => .pop a
  | .call => .call a
  | .ret => .ret
  | .compare => .compare a b
  | .jump => .jump a
  | .jumpIfEqual => .jumpIfEqual a
  | .jumpIfNotEqual => .jumpIfNotEqual a

/-! ## Decoding a list of bytes -/

/-- Why a list of bytes is not an instruction. -/
inductive DecodeReject where
  /-- There is no opcode byte. -/
  | noOpcode
  /-- The opcode byte is none of the fourteen (30_encoding.md R67). -/
  | unknownOpcode (op : Byte)
  /-- The list ends before declared operand byte `k` (1 for A, 2 for B). -/
  | missingOperand (k : Nat)
  deriving DecidableEq, Repr

/-- Operand byte `k`, if it is declared: an undeclared one is not read (30_encoding.md R55, R68). -/
def takeOperand (declared : Bool) (k : Nat) (bs : List Byte) : Except DecodeReject (Byte × List Byte) :=
  if declared then
    match bs with
    | [] => .error (.missingOperand k)
    | x :: rest => .ok (x, rest)
  else .ok (0, bs)

/-- The instruction at the head of a list of bytes, lowest address first, and the bytes after it
(30_encoding.md R55, R61, R63, R69). -/
def decode (bytes : List Byte) : Except DecodeReject (Instr × List Byte) :=
  match bytes with
  | [] => .error .noOpcode
  | op :: rest =>
    match dispatch op with
    | none => .error (.unknownOpcode op)
    | some v => do
      let (a, rest) ← takeOperand (1 ≤ operandCount op) 1 rest
      let (b, rest) ← takeOperand (2 ≤ operandCount op) 2 rest
      pure (assemble v a b, rest)

/-- The three bytes of an instruction given as a number whose bit 0 is the least significant bit of the first byte;
every bit at or above `nbits` is 0. -/
def tableBytes (nbits w : Nat) : List Byte :=
  (List.range 3).map fun k => BitVec.ofNat 8 ((w % 2 ^ nbits) / 2 ^ (8 * k))

/-- The instruction the decoder reads from the bits of an opcode-table row. -/
def decodeTableWord (nbits w : Nat) : Option Instr :=
  match decode (tableBytes nbits w) with
  | .ok (i, _) => some i
  | .error _ => none

/-! ## Encoding -/

/-- The bytes of an instruction, lowest address first, written from the opcodes of 30_encoding.md R63 and the formats
of R64. -/
def encode : Instr → List Byte
  | .halt => [0b00000001]
  | .loadImmediate a imm => [0b10000010, a, imm]
  | .printRegister a => [0b01000111, a]
  | .multiply a b => [0b10100010, a, b]
  | .add a b => [0b10100000, a, b]
  | .modulo a b => [0b10100100, a, b]
  | .push a => [0b01000101, a]
  | .pop a => [0b01000110, a]
  | .call a => [0b01010000, a]
  | .ret => [0b00010001]
  | .compare a b => [0b10100111, a, b]
  | .jump a => [0b01010100, a]
  | .jumpIfEqual a => [0b01010101, a]
  | .jumpIfNotEqual a => [0b01010110, a]

end Sys2Proof
end

