-- ==== Sys2Proof/Machine/Ops.lean ====
section
/-!
DEFINITION. The named operations of the machine: updates of the state, memory, registers, taking a fault, the
control-flow multiplexer and the commit of an instruction. There is no return from a fault (60_exceptions.md R150).
-/

namespace Sys2Proof.Machine

/-! ## Updates of one field -/

/-- Replace the register file. -/
def State.putReg (s : State) (r : Vector Byte 8) : State := { s with reg := r }
/-- `pc <- target` (00_scope.md R11). -/
def State.setPc (s : State) (target : Nat) : State := { s with pc := target }
/-- `FL <- f` (00_scope.md R11). -/
def State.setFlag (s : State) (f : Flag) : State := { s with fl := f }
/-- Replace the memory. -/
def State.putMem (s : State) (m : Memory) : State := { s with mem := m }
/-- Replace the status. -/
def State.setStatus (s : State) (st : Status) : State := { s with status := st }
/-- `started <- true` (40_execution_loop.md R75). -/
def State.markStarted (s : State) : State := { s with started := true }
/-- `out(v)`: append v to the output stream (00_scope.md R11, 42_data_output.md R101). -/
def State.emit (s : State) (v : Byte) : State := { s with out := s.out ++ [v] }
/-- `halt()`: running becomes false (00_scope.md R11, 40_execution_loop.md R85). -/
def State.halt (s : State) : State := s.setStatus .halted

/-! ## Memory as a list of cells -/

/-- What an unlisted address reads as: no value. The spec's default MEM_INIT is unwritten (10_state.md R33, D18). Safe
(assumption log 2). -/
def Memory.unlisted : Option Byte := none

/-- The byte a cell holds, if any. -/
def Memory.read : Memory → Nat → Option Byte
  | [], _ => Memory.unlisted
  | (k, v) :: m, a => if k = a then some v else Memory.read m a

/-- Put a cell into its place in the rising order, replacing the one at its address. -/
def Memory.insert (a : Nat) (v : Byte) : Memory → Memory
  | [] => [(a, v)]
  | (k, w) :: m =>
    if a < k then (a, v) :: (k, w) :: m
    else if a = k then (a, v) :: m
    else (k, w) :: Memory.insert a v m

/-- Take the cell at an address out of the list. -/
def Memory.erase (a : Nat) (m : Memory) : Memory := m.filter (fun c => c.1 ≠ a)

/-- Write one byte, keeping the canonical form. -/
def Memory.write (m : Memory) (a : Nat) (v : Byte) : Memory :=
  if Memory.unlisted = some v then Memory.erase a m else Memory.insert a v m

/-- The canonical form: addresses strictly rising, and no entry equal to what an unlisted address reads as. -/
abbrev Memory.wf (m : Memory) : Prop :=
  m.Pairwise (fun c d => c.1 < d.1) ∧ ∀ c ∈ m, Memory.unlisted ≠ some c.2

/-! ## What stops an instruction -/

/-- What ends an instruction before it completes. -/
inductive Stop where
  /-- `raise E(info)` (00_scope.md R11). -/
  | raise (c : Cause)
  /-- ReadUnwritten of a memory cell, the fault of the model (60_exceptions.md R147). -/
  | unwritten (addr : Nat)
  deriving DecidableEq, Repr

/-- `raise E(info)`. -/
def raise {α : Type} (c : Cause) : Except Stop α := .error (.raise c)

/-! ## Registers (00_scope.md R9) -/

/-- `x[i]`; the index is checked at the access (00_scope.md R9). No register is unwritten (assumption log 1). -/
def readReg (i : Byte) (s : State) : Except Stop Byte :=
  if h : i.toNat < Config.nReg then .ok s.reg[i.toNat] else raise (.badRegister i)

/-- `x[i] <- v` (00_scope.md R9). -/
def writeReg (i v : Byte) (s : State) : Except Stop State :=
  if h : i.toNat < Config.nReg then .ok (s.putReg (s.reg.set i.toNat v h)) else raise (.badRegister i)

/-! ## Memory accesses of one byte (00_scope.md R10) -/

/-- The bounds check of every access: the address is never reduced (20_memory.md R47). -/
def checkAddr (kind : AccessKind) (a : Nat) (s : State) : Except Stop Unit :=
  if a < s.params.memSize then .ok () else raise (.memOutOfBounds kind a)

/-- The byte in a cell that is in bounds, or ReadUnwritten. -/
def readCell (a : Nat) (s : State) : Except Stop Byte :=
  match s.mem.read a with
  | some v => .ok v
  | none => .error (.unwritten a)

/-- `MemRead(addr, 1)` (00_scope.md R10). -/
def memRead (kind : AccessKind) (a : Nat) (s : State) : Except Stop Byte := do
  checkAddr kind a s
  readCell a s

/-- `MemWrite(addr, 1, v)` (00_scope.md R10). -/
def memWrite (kind : AccessKind) (a : Nat) (v : Byte) (s : State) : Except Stop State := do
  checkAddr kind a s
  pure (s.putMem (s.mem.write a v))

/-! ## Taking a fault (60_exceptions.md R141) -/

/-- `s` is the state before the instruction: every write of it is discarded, PC stays P, and the status becomes
`Faulted(cause, P, info)` (60_exceptions.md R141, R148; 40_execution_loop.md R82). -/
def State.takeFault (s : State) (c : Cause) : State := s.setStatus (.faulted c s.pc)

/-- The outcome of an instruction that stopped, from the state before it. -/
def stopOutcome (s : State) : Stop → Host.Outcome State Fault Refusal
  | .raise c => .next (s.takeFault c)
  | .unwritten a => .fault (.readUnwritten a)

/-! ## The control-flow multiplexer and the commit (40_execution_loop.md R80 to R82) -/

/-- `pc_inc = P + 1 + n`, the generic advance, without wrap (40_execution_loop.md R81). -/
def pcInc (v : Variant) (s : State) : Nat := s.pc + 1 + operandCount v.opcode

/-- The multiplexer: sets_pc selects the handler's target or the generic advance (40_execution_loop.md R81). -/
def selectNextPc (setsPc : Bool) (handlerPc inc : Nat) : Nat := if setsPc then handlerPc else inc

/-- The end of an instruction of variant `v` started in `s`. A handler that completed leaves its writes in `t`, where
`t.pc` is its explicit target if it has made one; they commit together with the selected PC. A handler that stopped
leaves nothing (40_execution_loop.md R82, 00_scope.md R12). -/
def commit (v : Variant) (s : State) (r : Except Stop State) : Host.Outcome State Fault Refusal :=
  match r with
  | .ok t => .next (t.setPc (selectNextPc (setsPc v.opcode) t.pc (pcInc v s)))
  | .error e => stopOutcome s e

end Sys2Proof.Machine
end

