-- ==== Sys2Proof/Machine/Operands.lean ====
section
/-!
DEFINITION. The operand forms: the register pair of format RR, the immediate of format RI, the branch target of
format R, and the stack slot (30_encoding.md R62, R64; 43_stack.md R105, R108, R109).
-/

namespace Sys2Proof.Machine

/-- Format RR: `va <- x[a]`, then `vb <- x[b]` (41_alu.md R92). -/
def readPair (a b : Byte) (s : State) : Except Stop (Byte × Byte) := do
  let va ← readReg a s
  let vb ← readReg b s
  pure (va, vb)

/-- Format RI: operand B is the literal itself, with no extension, scaling or shift (30_encoding.md R62 b). -/
def immediate (b : Byte) : Byte := b

/-- Format R as a target: the byte in x[a], with no offset, scaling or alignment (45_compare_branch.md R130). -/
def branchTarget (a : Byte) (s : State) : Except Stop Nat := do
  let t ← readReg a s
  pure t.toNat

/-- `t <- x[a]; pc <- t` (45_compare_branch.md R126). -/
def jumpTo (a : Byte) (s : State) : Except Stop State := do
  let t ← branchTarget a s
  pure (s.setPc t)

/-- A conditional jump of variant `v`: x[a] is accessed only when it is taken, else the handler supplies pc_inc
(45_compare_branch.md R127, R128). -/
def jumpWhen (taken : Bool) (v : Variant) (a : Byte) (s : State) : Except Stop State :=
  if taken then jumpTo a s else .ok (s.setPc (pcInc v s))

/-- An ALU operation on x[a] and x[b]: the result goes to x[a], or to FL for a compare (41_alu.md R90). -/
def aluOperation (tag : AluTag) (a b : Byte) (s : State) : Except Stop State := do
  let (va, vb) ← readPair a b s
  match alu tag va vb with
  | .value v => writeReg a v s
  | .flag f => pure (s.setFlag f)
  | .divideByZero => raise (.divideByZero b)

/-- The first half of a push: the overflow check, the bounds check of the new slot, and the decrement of SP. Answers the
address of the slot and the state with SP decremented (43_stack.md R106, R108; 44_call_return.md R115). -/
def reserveSlot (s : State) : Except Stop (Byte × State) := do
  let sp ← readReg Config.spIndex s
  if sp = 0 then raise (.stackOverflow sp)
  else
    let slot := sp - 1
    checkAddr .stackWrite slot.toNat s
    let t ← writeReg Config.spIndex slot s
    pure (slot, t)

/-- The first half of a pop: the underflow check and the read at SP. Answers SP and the byte (43_stack.md R107, R109). -/
def readTop (s : State) : Except Stop (Byte × Byte) := do
  let sp ← readReg Config.spIndex s
  if s.params.spInit.toNat ≤ sp.toNat then raise (.stackUnderflow sp)
  else
    let v ← memRead .stackRead sp.toNat s
    pure (sp, v)

end Sys2Proof.Machine
end

