-- ==== Sys2Proof/Machine/Arithmetic.lean ====
section
/-!
DEFINITION. MULTIPLY, ADD and MODULO (41_alu.md).
-/

namespace Sys2Proof.Machine

/-- MULTIPLY: `x[a] <- (x[a] * x[b]) mod 256` (41_alu.md R93). -/
def execMultiply (a b : Byte) (s : State) : Host.Outcome State Fault Refusal :=
  commit .multiply s (aluOperation .mul a b s)

/-- ADD: `x[a] <- (x[a] + x[b]) mod 256` (41_alu.md R92). -/
def execAdd (a b : Byte) (s : State) : Host.Outcome State Fault Refusal :=
  commit .add s (aluOperation .add a b s)

/-- MODULO: `x[a] <- x[a] mod x[b]`, or DivideByZero(b) (41_alu.md R94). -/
def execModulo (a b : Byte) (s : State) : Host.Outcome State Fault Refusal :=
  commit .modulo s (aluOperation .mod a b s)

end Sys2Proof.Machine
end

