-- ==== Sys2Proof/Machine/CallReturn.lean ====
section
/-!
DEFINITION. CALL and RETURN (44_call_return.md).
-/

namespace Sys2Proof.Machine

/-- CALL: the return address must fit in a byte (44_call_return.md R117); push it, then jump to x[a] read after the push
(R115). -/
def execCall (a : Byte) (s : State) : Host.Outcome State Fault Refusal :=
  commit .call s do
    let ret := s.pc + 2
    if 255 < ret then raise (.returnAddressOverflow ret)
    else
      let (slot, t) ← reserveSlot s
      let t ← memWrite .stackWrite slot.toNat (BitVec.ofNat 8 ret) t
      jumpTo a t

/-- RETURN: the byte at SP becomes the PC, and SP is incremented (44_call_return.md R116). -/
def execReturn (s : State) : Host.Outcome State Fault Refusal :=
  commit .ret s do
    let (sp, target) ← readTop s
    let t ← writeReg Config.spIndex (sp + 1) s
    pure (t.setPc target.toNat)

end Sys2Proof.Machine
end

