-- ==== Sys2Proof/Machine/CompareBranch.lean ====
section
/-!
DEFINITION. COMPARE, JUMP, JUMP-IF-EQUAL and JUMP-IF-NOT-EQUAL (45_compare_branch.md).
-/

namespace Sys2Proof.Machine

/-- COMPARE: `FL <- CompareFlag(x[a], x[b])` (45_compare_branch.md R125). -/
def execCompare (a b : Byte) (s : State) : Host.Outcome State Fault Refusal :=
  commit .compare s (aluOperation .cmp a b s)

/-- JUMP: `pc <- x[a]` (45_compare_branch.md R126). -/
def execJump (a : Byte) (s : State) : Host.Outcome State Fault Refusal :=
  commit .jump s (jumpTo a s)

/-- JUMP-IF-EQUAL: taken when FL is EQ (45_compare_branch.md R127). -/
def execJumpIfEqual (a : Byte) (s : State) : Host.Outcome State Fault Refusal :=
  commit .jumpIfEqual s (jumpWhen (flagIsEqual s.fl) .jumpIfEqual a s)

/-- JUMP-IF-NOT-EQUAL: taken when FL is not EQ (45_compare_branch.md R128). -/
def execJumpIfNotEqual (a : Byte) (s : State) : Host.Outcome State Fault Refusal :=
  commit .jumpIfNotEqual s (jumpWhen (!flagIsEqual s.fl) .jumpIfNotEqual a s)

end Sys2Proof.Machine
end

