-- ==== Sys2Proof/Machine/DataMovement.lean ====
section
/-!
DEFINITION. LOAD-IMMEDIATE and PRINT-REGISTER (42_data_output.md).
-/

namespace Sys2Proof.Machine

/-- LOAD-IMMEDIATE: `x[a] <- b` (42_data_output.md R100). -/
def execLoadImmediate (a imm : Byte) (s : State) : Host.Outcome State Fault Refusal :=
  commit .loadImmediate s (writeReg a (immediate imm) s)

/-- PRINT-REGISTER: `v <- x[a]; out(v)` (42_data_output.md R101). -/
def execPrintRegister (a : Byte) (s : State) : Host.Outcome State Fault Refusal :=
  commit .printRegister s do
    let v ← readReg a s
    pure (s.emit v)

end Sys2Proof.Machine
end

