-- ==== Sys2Proof/Machine/Halting.lean ====
section
/-!
DEFINITION. HALT (40_execution_loop.md section 2).
-/

namespace Sys2Proof.Machine

/-- HALT: status Halted; the multiplexer then selects P + 1 (40_execution_loop.md R85). -/
def execHalt (s : State) : Host.Outcome State Fault Refusal :=
  commit .halt s (.ok s.halt)

end Sys2Proof.Machine
end

