-- ==== Sys2Proof/Machine/Stack.lean ====
section
/-!
DEFINITION. PUSH and POP (43_stack.md).
-/

namespace Sys2Proof.Machine

/-- PUSH: decrement SP, then read x[a], then write it at the new SP (43_stack.md R106). -/
def execPush (a : Byte) (s : State) : Host.Outcome State Fault Refusal :=
  commit .push s do
    let (slot, t) ← reserveSlot s
    let v ← readReg a t
    memWrite .stackWrite slot.toNat v t

/-- POP: read at SP into x[a], then increment x[7] as it then is (43_stack.md R107). -/
def execPop (a : Byte) (s : State) : Host.Outcome State Fault Refusal :=
  commit .pop s do
    let (sp, v) ← readTop s
    let t ← writeReg a v s
    let top ← readReg Config.spIndex t
    if top = 255 then raise (.stackUnderflow sp)
    else writeReg Config.spIndex (top + 1) t

end Sys2Proof.Machine
end

