-- ==== Sys2Proof/Machine/Dispatch.lean ====
section
/-!
DEFINITION. The dispatch of an instruction to its meaning, one arm a constructor (40_execution_loop.md R80).
-/

namespace Sys2Proof.Machine

def exec (i : Instr) (s : State) : Host.Outcome State Fault Refusal :=
  match i with
  | .halt => Sys2Proof.Machine.execHalt s
  | .loadImmediate a imm => Sys2Proof.Machine.execLoadImmediate a imm s
  | .printRegister a => Sys2Proof.Machine.execPrintRegister a s
  | .multiply a b => Sys2Proof.Machine.execMultiply a b s
  | .add a b => Sys2Proof.Machine.execAdd a b s
  | .modulo a b => Sys2Proof.Machine.execModulo a b s
  | .push a => Sys2Proof.Machine.execPush a s
  | .pop a => Sys2Proof.Machine.execPop a s
  | .call a => Sys2Proof.Machine.execCall a s
  | .ret => Sys2Proof.Machine.execReturn s
  | .compare a b => Sys2Proof.Machine.execCompare a b s
  | .jump a => Sys2Proof.Machine.execJump a s
  | .jumpIfEqual a => Sys2Proof.Machine.execJumpIfEqual a s
  | .jumpIfNotEqual a => Sys2Proof.Machine.execJumpIfNotEqual a s

end Sys2Proof.Machine
end

