-- ==== Sys2Proof/Machine/Fetch.lean ====
section
/-!
DEFINITION. The first half of a step: fetching the opcode byte, dispatching it, and fetching the declared operand bytes
(40_execution_loop.md R76 to R79).
-/

namespace Sys2Proof.Machine

/-- The bounds of operand byte `k`, if it is among the n declared ones (40_execution_loop.md R79). -/
def checkOperand (n k : Nat) (s : State) : Except Stop Unit :=
  if k ≤ n then checkAddr .operandFetch (s.pc + k) s else .ok ()

/-- The bounds of the declared operand bytes, A before B (40_execution_loop.md R79; 60_exceptions.md R149 item 4). -/
def checkOperands (n : Nat) (s : State) : Except Stop Unit := do
  checkOperand n 1 s
  checkOperand n 2 s

/-- Operand byte `k` if it is among the n declared ones; one that is not declared is not read
(40_execution_loop.md R79). -/
def fetchOperand (n k : Nat) (s : State) : Except Stop Byte :=
  if k ≤ n then readCell (s.pc + k) s else .ok 0

/-- The instruction at PC: the opcode byte, its dispatch, then the operand bytes, with the faults in the order of
60_exceptions.md R149 (assumption log 7). -/
def fetch (s : State) : Except Stop Instr := do
  let op ← memRead .fetch s.pc s
  match dispatch op with
  | none => raise (.decodeError op)
  | some v =>
    checkOperands (operandCount op) s
    let a ← fetchOperand (operandCount op) 1 s
    let b ← fetchOperand (operandCount op) 2 s
    pure (assemble v a b)

/-- Store bytes at consecutive addresses from `a` on; a byte at or above MEM_SIZE is dropped. -/
def placeBytes (a : Nat) (bytes : List Byte) (s : State) : State :=
  match bytes with
  | [] => s
  | v :: rest =>
    placeBytes (a + 1) rest (if a < s.params.memSize then s.putMem (s.mem.write a v) else s)

/-- The cancellation the core has sampled: the status becomes Cancelled and nothing else changes
(60_exceptions.md R154). -/
def State.takeCancel (s : State) : State := s.setStatus .cancelled

end Sys2Proof.Machine
end

