-- ==== Sys2Proof/Machine/Step.lean ====
section
/-!
DEFINITION. One step of the core: one whole instruction (40_execution_loop.md R83, 70_reset_and_hazards.md R171).
-/

namespace Sys2Proof.Machine

/-- `Step` (40_execution_loop.md R75, R83): enabled only when the status is Running; a cancellation request is sampled
before the fetch (60_exceptions.md R154); `started` becomes true even when the step faults. -/
def step (s : State) : Host.Outcome State Fault Refusal :=
  match s.status with
  | .running =>
    if s.cancelRequested then .next s.takeCancel
    else
      match fetch s.markStarted with
      | .ok i => exec i s.markStarted
      | .error e => stopOutcome s.markStarted e
  | st => .fault (.notRunning st)

/-- The instruction of an opcode-table row stored where `step` fetches next, its three bytes at PC, PC + 1 and PC + 2
(assumption log 5). -/
def State.withFetchWord (s : State) (nbits w : Nat) : State := placeBytes s.pc (tableBytes nbits w) s

end Sys2Proof.Machine
end

