-- ==== Sys2Proof/Machine/HostInterface.lean ====
section
/-!
DEFINITION. What the host can do to the core and read from it (60_exceptions.md section 6): reset, Load, Run and Step,
Cancel, the output, the status and its exit codes. None of it is an instruction.
-/

namespace Sys2Proof.Machine

/-! ## Reset, load, cancel -/

/-- Reset, which the host may do at any time and which is the only way out of a terminal status
(70_reset_and_hazards.md R165, 60_exceptions.md R162). The machine keeps its parameters. -/
def hostReset (s : State) : State := State.resetWith s.params

/-- Whether a Load is admitted: after reset and before the first step, to a cell of the memory, of a byte
(60_exceptions.md R152). -/
def loadAdmitted (addr value : Nat) (s : State) : Bool :=
  s.status == .running && !s.started && addr < s.params.memSize && value ≤ 255

/-- `Load(addr, value)`: the state after it, or none where it is refused and nothing is written
(60_exceptions.md R152). -/
def load (addr value : Nat) (s : State) : Option State :=
  if loadAdmitted addr value s then some (s.putMem (s.mem.write addr (BitVec.ofNat 8 value))) else none

/-- A program image from `addr` upward: the state after the loads up to the first refused one, and the address of that
one if there is one (60_exceptions.md R152). -/
def loadImageFrom (addr : Nat) (image : List Nat) (s : State) : State × Option Nat :=
  match image with
  | [] => (s, none)
  | v :: rest =>
    match load addr v s with
    | some t => loadImageFrom (addr + 1) rest t
    | none => (s, some addr)

/-- A program image loaded from address 0 (60_exceptions.md R152, 70_reset_and_hazards.md R168). -/
def loadImage (image : List Nat) (s : State) : State × Option Nat := loadImageFrom 0 image s

/-- The host's request for cancellation; the core samples it at the next step (60_exceptions.md R154). -/
def requestCancel (s : State) : State := { s with cancelRequested := true }

/-! ## Run -/

/-- `run()` for at most `k` steps: a step is taken while the status is Running (40_execution_loop.md R84,
60_exceptions.md R153). A run need not end (R88), hence the bound (assumption log 10). -/
def runFor : Nat → State → Host.Outcome State Fault Refusal
  | 0, s => .next s
  | k + 1, s =>
    if s.status = .running then
      match step s with
      | .next t => runFor k t
      | .fault f => .fault f
      | .refused r => .refused r
    else .next s

/-- Whether a run has ended: the status is not Running (70_reset_and_hazards.md R172). -/
def ended (s : State) : Bool := s.status != .running

/-! ## What the host reads -/

/-- The numeric cause codes (60_exceptions.md R142). -/
def causeCode : Cause → Nat
  | .decodeError _ => 1
  | .memOutOfBounds _ _ => 2
  | .stackOverflow _ => 3
  | .stackUnderflow _ => 4
  | .divideByZero _ => 5
  | .badRegister _ => 6
  | .returnAddressOverflow _ => 7

/-- The cause code of a status; 0 means no fault (60_exceptions.md R142). -/
def statusCode : Status → Nat
  | .faulted c _ => causeCode c
  | .running => 0
  | .halted => 0
  | .cancelled => 0

/-- The exit code the host's process gives for a terminal status (60_exceptions.md R156); none while Running. -/
def exitCode : Status → Option Nat
  | .running => none
  | .halted => some 0
  | .faulted _ _ => some 1
  | .cancelled => some 1

/-- What a run shows the host: the output and the terminal status (70_reset_and_hazards.md R172). -/
def observation (s : State) : List Byte × Status := (s.out, s.status)

/-- The text the host makes of one output entry: the unsigned value in base 10, no sign, no leading zeros, then a line
terminator of the host's choice (42_data_output.md R102). PRESUMED, safe (assumption log 9). -/
def entryText (terminator : List Char) (v : Byte) : List Char := Nat.toDigits 10 v.toNat ++ terminator

/-- The text of the whole output stream, in execution order (42_data_output.md R102). -/
def outputText (terminator : List Char) (s : State) : List Char := s.out.flatMap (entryText terminator)

end Sys2Proof.Machine
end

