-- ==== Sys2Proof/WellFormed.lean ====
section
/-!
DEFINITION. What counts as a well-formed instruction and as a legal set of parameters.
-/

namespace Sys2Proof

/-- Every term of `Instr` can be encoded: an operand is a byte and all 256 values of it have an encoding
(30_encoding.md R62 a, R74: indices 8..255 "are not illegal encodings"), so no instruction is ill formed and this check
refuses nothing. It is spelled out per constructor so that a constructor added later must say what it demands. -/
def Instr.wellFormed : Instr → Bool
  | .halt => true
  | .loadImmediate _ _ => true
  | .printRegister _ => true
  | .multiply _ _ => true
  | .add _ _ => true
  | .modulo _ _ => true
  | .push _ => true
  | .pop _ => true
  | .call _ => true
  | .ret => true
  | .compare _ _ => true
  | .jump _ => true
  | .jumpIfEqual _ => true
  | .jumpIfNotEqual _ => true

/-- MEM_SIZE is in 1..256 (00_scope.md R5). -/
abbrev Params.memSizeLegal (p : Params) : Prop := 1 ≤ p.memSize ∧ p.memSize ≤ 256

/-- SP_INIT is in 1..255 and at most MEM_SIZE (00_scope.md R5); a byte is at most 255 by its type. -/
abbrev Params.spInitLegal (p : Params) : Prop := 1 ≤ p.spInit.toNat ∧ p.spInit.toNat ≤ p.memSize

/-- MEM_INIT lists cells of the memory only, each once, in rising order (00_scope.md R5 `Fin MEM_SIZE -> Option Byte`
of 92_eei_decisions.md D18, as plain data). -/
abbrev Params.memInitLegal (p : Params) : Prop :=
  p.memInit.Pairwise (fun c d => c.1 < d.1) ∧ ∀ c ∈ p.memInit, c.1 < p.memSize

/-- The parameters a machine may have (00_scope.md R5). -/
abbrev Params.legal (p : Params) : Prop := p.memSizeLegal ∧ p.spInitLegal ∧ p.memInitLegal

end Sys2Proof
end

