-- ==== Sys2Proof/Safety.lean ====
section
/-!
DEFINITION. The invariants of the machine and the notions claims are stated in.
-/

namespace Sys2Proof.Machine

/-- The memory is in canonical form and lists only cells below MEM_SIZE (10_state.md R30, 20_memory.md R42). -/
def State.memoryInv (s : State) : Prop := s.mem.wf ∧ ∀ c ∈ s.mem, c.1 < s.params.memSize

/-- The PC range: 0 .. max(MEM_SIZE, 255) (10_state.md R25). -/
def State.pcInv (s : State) : Prop := s.pc ≤ max s.params.memSize 255

/-- What a core that has faulted with a cause still shows of it: a fault is precise, so the state is the one the
instruction met (60_exceptions.md R141, R142; 43_stack.md R108, R109). -/
def Cause.explainedBy (s : State) : Cause → Prop
  | .decodeError op => s.mem.read s.pc = some op ∧ dispatch op = none
  | .memOutOfBounds .fetch addr => addr = s.pc ∧ s.params.memSize ≤ addr
  | .memOutOfBounds .operandFetch addr => (addr = s.pc + 1 ∨ addr = s.pc + 2) ∧ s.params.memSize ≤ addr
  | .memOutOfBounds .stackWrite addr => addr + 1 = s.reg[7].toNat ∧ s.params.memSize ≤ addr
  | .memOutOfBounds .stackRead _ => False
  | .stackOverflow sp => sp = s.reg[7] ∧ sp = 0
  | .stackUnderflow sp => sp = s.reg[7] ∧ (s.params.spInit.toNat ≤ sp.toNat ∨ s.mem.read sp.toNat = some 255)
  | .divideByZero b => ∃ _ : b.toNat < Config.nReg, s.reg[b.toNat] = 0
  | .badRegister i => Config.nReg ≤ i.toNat
  | .returnAddressOverflow ret => ret = s.pc + 2 ∧ 255 < ret

/-- A fault record names the PC, which stays at the faulting instruction, and its cause is still to be seen in the state
(60_exceptions.md R141, R142, R148). -/
def State.faultRecordInv (s : State) : Prop :=
  ∀ c p, s.status = .faulted c p → p = s.pc ∧ c.explainedBy s

/-- A halted or faulted core has taken a step (10_state.md R36, 40_execution_loop.md R75). -/
def State.startedInv (s : State) : Prop :=
  s.status = .halted ∨ (∃ c p, s.status = .faulted c p) → s.started = true

/-- The invariant of the machine. -/
def State.Inv (s : State) : Prop :=
  s.params.legal ∧ s.memoryInv ∧ s.pcInv ∧ s.faultRecordInv ∧ s.startedInv

/-- The registers an instruction may write (10_state.md R22, column writes). -/
def writesReg : Instr → List Byte
  | .halt => []
  | .loadImmediate a _ => [a]
  | .printRegister _ => []
  | .multiply a _ => [a]
  | .add a _ => [a]
  | .modulo a _ => [a]
  | .push _ => [Config.spIndex]
  | .pop a => [a, Config.spIndex]
  | .call _ => [Config.spIndex]
  | .ret => [Config.spIndex]
  | .compare _ _ => []
  | .jump _ => []
  | .jumpIfEqual _ => []
  | .jumpIfNotEqual _ => []

/-- The registers an instruction may read (10_state.md R22, column reads); the conditional jumps read theirs only when
taken. -/
def readsReg (f : Flag) : Instr → List Byte
  | .halt => []
  | .loadImmediate _ _ => []
  | .printRegister a => [a]
  | .multiply a b => [a, b]
  | .add a b => [a, b]
  | .modulo a b => [a, b]
  | .push a => [Config.spIndex, a]
  | .pop _ => [Config.spIndex]
  | .call a => [Config.spIndex, a]
  | .ret => [Config.spIndex]
  | .compare a b => [a, b]
  | .jump a => [a]
  | .jumpIfEqual a => if f = .eq then [a] else []
  | .jumpIfNotEqual a => if f = .eq then [] else [a]

/-- The status is not a fault: where `exec` answers such a state, the instruction has completed. -/
def State.notFaulted (s : State) : Prop := ∀ c p, s.status ≠ .faulted c p

/-- Change the next state of an outcome, and nothing where there is none. -/
def mapNext (g : State → State) : Host.Outcome State Fault Refusal → Host.Outcome State Fault Refusal
  | .next s => .next (g s)
  | .fault f => .fault f
  | .refused q => .refused q

/-- The state with one register replaced. -/
def State.withReg (s : State) (r : Fin 8) (v : Byte) : State := s.putReg (s.reg.set r v)

/-- The state an instruction leaves that takes fault `c` from `s` (60_exceptions.md R141), written out. -/
def State.faultedWith (s : State) (c : Cause) : State := { s with status := .faulted c s.pc }

end Sys2Proof.Machine
end

