-- ==== Sys2Proof/Certificates/Slice0/Obligations.lean ====
section
/-!
DEFINITION. The statements for the provers. Each is listed in OBLIGATIONS.json with the rules of spec/ it rests on.
-/

open Sys2Proof Sys2Proof.Machine

/-! ## Encoding and decoding -/

/-- Decoding the bytes of an instruction gives it back and leaves the bytes after it (30_encoding.md R55, R63, R64). -/
def Obligations.DecodeInvertsEncode : Prop :=
  ∀ (i : Instr) (rest : List Byte), decode (encode i ++ rest) = .ok (i, rest)

/-- The bytes a decoded instruction was read from are its encoding: every word has one meaning (30_encoding.md R68). -/
def Obligations.EncodeInvertsDecode : Prop :=
  ∀ (bytes rest : List Byte) (i : Instr), decode bytes = .ok (i, rest) → bytes = encode i ++ rest

/-- The fourteen legal opcode bytes, as 30_encoding.md R66 lists them. -/
def legalOpcodes : List Byte :=
  [0x01, 0x11, 0x45, 0x46, 0x47, 0x50, 0x54, 0x55, 0x56, 0x82, 0xA0, 0xA2, 0xA4, 0xA7]

/-- Each of the 242 other bytes is rejected by name, and fetching one raises DecodeError whatever stands after it
(30_encoding.md R67). -/
def Obligations.UnknownOpcodeIsDecodeError : Prop :=
  (∀ (op : Byte) (rest : List Byte), op ∉ legalOpcodes → decode (op :: rest) = .error (.unknownOpcode op)) ∧
  (∀ (op : Byte) (s : State), op ∉ legalOpcodes → s.status = .running → s.cancelRequested = false →
    s.pc < s.params.memSize → s.mem.read s.pc = some op →
    step s = .next { s with started := true, status := .faulted (.decodeError op) s.pc }) ∧
  ((List.range 256).filter fun n => BitVec.ofNat 8 n ∉ legalOpcodes).length = 242

/-- The decoder's three outputs for every byte (30_encoding.md R61). -/
def Obligations.OpcodeBitsOfEveryByte : Prop :=
  ∀ op : Byte, operandCount op = op.toNat / 64 ∧ (setsPc op = true ↔ op.toNat / 16 % 2 = 1) ∧
    (aluBit op = true ↔ op.toNat / 32 % 2 = 1)

/-- The dispatch table: the fourteen rows with operand count, sets_pc and alu, and Unknown for any other byte
(30_encoding.md R63). -/
def Obligations.OpcodeTableRows : Prop :=
  (dispatch 0x01 = some .halt ∧ opcodeBits 0x01 = ⟨0, false, false⟩) ∧
  (dispatch 0x82 = some .loadImmediate ∧ opcodeBits 0x82 = ⟨2, false, false⟩) ∧
  (dispatch 0x47 = some .printRegister ∧ opcodeBits 0x47 = ⟨1, false, false⟩) ∧
  (dispatch 0xA2 = some .multiply ∧ opcodeBits 0xA2 = ⟨2, false, true⟩) ∧
  (dispatch 0xA0 = some .add ∧ opcodeBits 0xA0 = ⟨2, false, true⟩) ∧
  (dispatch 0xA4 = some .modulo ∧ opcodeBits 0xA4 = ⟨2, false, true⟩) ∧
  (dispatch 0x45 = some .push ∧ opcodeBits 0x45 = ⟨1, false, false⟩) ∧
  (dispatch 0x46 = some .pop ∧ opcodeBits 0x46 = ⟨1, false, false⟩) ∧
  (dispatch 0x50 = some .call ∧ opcodeBits 0x50 = ⟨1, true, false⟩) ∧
  (dispatch 0x11 = some .ret ∧ opcodeBits 0x11 = ⟨0, true, false⟩) ∧
  (dispatch 0xA7 = some .compare ∧ opcodeBits 0xA7 = ⟨2, false, true⟩) ∧
  (dispatch 0x54 = some .jump ∧ opcodeBits 0x54 = ⟨1, true, false⟩) ∧
  (dispatch 0x55 = some .jumpIfEqual ∧ opcodeBits 0x55 = ⟨1, true, false⟩) ∧
  (dispatch 0x56 = some .jumpIfNotEqual ∧ opcodeBits 0x56 = ⟨1, true, false⟩) ∧
  (∀ op : Byte, op ∉ legalOpcodes → dispatch op = none)

/-- Words written out from the encodings of the spec decode to the instructions they stand for (42_data_output.md R100,
R101; 41_alu.md R92; 43_stack.md R106; 44_call_return.md R116; 45_compare_branch.md R127). -/
def Obligations.SampleWordsDecode : Prop :=
  decodeTableWord 8 0b00000001 = some .halt ∧
  decodeTableWord 24 0b000010000000000010000010 = some (.loadImmediate 0 8) ∧
  decodeTableWord 16 0b1100100001000111 = some (.printRegister 200) ∧
  decodeTableWord 24 0b000000010000001110100000 = some (.add 3 1) ∧
  decodeTableWord 16 0b0000011101000101 = some (.push 7) ∧
  decodeTableWord 8 0b00010001 = some .ret ∧
  decodeTableWord 16 0b0000001001010101 = some (.jumpIfEqual 2)

/-! ## One step -/

/-- When the bytes at PC are those of an instruction, a step is its meaning, with `started` set
(40_execution_loop.md R83). -/
def Obligations.StepRunsDecodedInstruction : Prop :=
  ∀ (s : State) (bytes : List Byte) (i : Instr), s.status = .running → s.cancelRequested = false →
    decode bytes = .ok (i, []) →
    (∀ (k : Nat) (h : k < bytes.length), s.pc + k < s.params.memSize ∧ s.mem.read (s.pc + k) = some bytes[k]) →
    step s = exec i { s with started := true }

/-- A fetch at or above MEM_SIZE raises MemOutOfBounds(Fetch, P) (40_execution_loop.md R76, 60_exceptions.md R144). -/
def Obligations.FetchBeyondMemoryFaults : Prop :=
  ∀ s : State, s.status = .running → s.cancelRequested = false → s.params.memSize ≤ s.pc →
    step s = .next { s with started := true, status := .faulted (.memOutOfBounds .fetch s.pc) s.pc }

/-- A declared operand byte at or above MEM_SIZE raises MemOutOfBounds(OperandFetch, address), A before B and both
before an unwritten operand cell (40_execution_loop.md R79, 60_exceptions.md R149 item 4). -/
def Obligations.OperandBeyondMemoryFaults : Prop :=
  ∀ (s : State) (op : Byte), s.status = .running → s.cancelRequested = false → s.pc < s.params.memSize →
    s.mem.read s.pc = some op → op ∈ legalOpcodes →
    (1 ≤ operandCount op → s.params.memSize ≤ s.pc + 1 →
      step s = .next { s with started := true, status := .faulted (.memOutOfBounds .operandFetch (s.pc + 1)) s.pc }) ∧
    (2 ≤ operandCount op → s.pc + 1 < s.params.memSize → s.params.memSize ≤ s.pc + 2 →
      step s = .next { s with started := true, status := .faulted (.memOutOfBounds .operandFetch (s.pc + 2)) s.pc })

/-- Fetching a cell that holds no byte stops the model: the opcode cell, then the declared operand cells in order
(60_exceptions.md R147, R149). That unwritten cells hold no byte is the spec's default MEM_INIT (assumption log 2), and
the order is assumption log 7. -/
def Obligations.FetchOfUnwrittenCellStops : Prop :=
  ∀ s : State, s.status = .running → s.cancelRequested = false →
    (s.pc < s.params.memSize → s.mem.read s.pc = none → step s = .fault (.readUnwritten s.pc)) ∧
    (∀ op : Byte, s.mem.read s.pc = some op → op ∈ legalOpcodes → s.pc + operandCount op < s.params.memSize →
      (1 ≤ operandCount op → s.mem.read (s.pc + 1) = none → step s = .fault (.readUnwritten (s.pc + 1))) ∧
      (2 ≤ operandCount op → s.mem.read (s.pc + 1) ≠ none → s.mem.read (s.pc + 2) = none →
        step s = .fault (.readUnwritten (s.pc + 2))))

/-- The bytes after the declared operands have no effect on what is fetched (40_execution_loop.md R79, R87). -/
def Obligations.UndeclaredBytesAreNotRead : Prop :=
  ∀ (s : State) (m : Memory) (i : Instr), fetch s = .ok i →
    (∀ k, k < (encode i).length → m.read (s.pc + k) = s.mem.read (s.pc + k)) →
    fetch { s with mem := m } = .ok i

/-- Halted, Faulted and Cancelled have no step (40_execution_loop.md R75, 10_state.md R27). -/
def Obligations.TerminalStatusHasNoStep : Prop :=
  ∀ s : State, s.status ≠ .running → step s = .fault (.notRunning s.status)

/-- A cancellation the host requested is sampled before the fetch, and nothing but the status changes
(60_exceptions.md R154). That a request is a field which stays set is the model's choice (assumption log 6). -/
def Obligations.CancellationIsSampledBeforeTheFetch : Prop :=
  ∀ s : State,
    (s.status = .running → s.cancelRequested = true → step s = .next { s with status := .cancelled }) ∧
    (s.status = .running → step (requestCancel s) = .next { requestCancel s with status := .cancelled }) ∧
    (requestCancel s = { s with cancelRequested := true })

/-- A step that is taken sets `started`, also where it faults; a sampled cancellation takes no step
(40_execution_loop.md R75, 10_state.md R36). -/
def Obligations.StepSetsStarted : Prop :=
  ∀ s t : State, step s = .next t →
    (s.cancelRequested = false → t.started = true ∧ ∀ addr value, load addr value t = none) ∧
    (s.cancelRequested = true → t.started = s.started)

/-- A step answers a next state in every case but two: the core is not running, or it reads a memory cell in bounds that
holds no byte. It never refuses. That no other stop exists is the model's: a register always holds a value, so
ReadUnwritten of a register does not arise (assumption log 1); a cell may hold none (log 2); and these two stops are the
only ones without a next state (log 4). -/
def Obligations.StepStopsOnlyForTwoReasons : Prop :=
  ∀ s : State,
    (∃ t, step s = .next t) ∨
    (s.status ≠ .running ∧ step s = .fault (.notRunning s.status)) ∨
    (∃ a, a < s.params.memSize ∧ s.mem.read a = none ∧ step s = .fault (.readUnwritten a))

/-! ## Invariants -/

/-- The invariant holds after reset, with the parameters of this hardware and with any legal ones. -/
def Obligations.ResetMeetsInvariant : Prop :=
  State.reset.Inv ∧ ∀ p : Params, p.legal → (State.resetWith p).Inv

/-- Every step keeps the invariant: legal parameters, memory in canonical form and in bounds, PC in range, a fault
record that names the PC and whose cause is still to be seen in the state, and `started` after a halt or a fault. -/
def Obligations.StepKeepsInvariant : Prop :=
  ∀ s t : State, s.Inv → step s = .next t → t.Inv

/-- Every step keeps the canonical form of the memory and its bounds, whatever else holds of the state. -/
def Obligations.StepKeepsMemoryForm : Prop :=
  ∀ s t : State, s.memoryInv → step s = .next t → t.memoryInv

/-- Every step keeps the PC in 0..max(MEM_SIZE, 255), whatever else holds of the state (10_state.md R25). -/
def Obligations.StepKeepsPcRange : Prop :=
  ∀ s t : State, s.pcInv → step s = .next t → t.pcInv

/-- What the host does outside a step keeps the invariant: an admitted Load, a whole image, a cancellation request,
reset (60_exceptions.md R162). -/
def Obligations.HostKeepsInvariant : Prop :=
  ∀ s : State, s.Inv →
    (∀ addr value t, load addr value s = some t → t.Inv) ∧ (∀ image, (loadImage image s).1.Inv) ∧
    (requestCancel s).Inv ∧ (hostReset s).Inv

/-- Two memories in canonical form that read the same at every address are the same list. -/
def Obligations.CanonicalMemoriesAreEqual : Prop :=
  ∀ m n : Memory, m.wf → n.wf → (∀ a, m.read a = n.read a) → m = n

/-! ## Rules of the whole machine -/

/-- FL is written by COMPARE only, and read by the two conditional jumps only, which test it for EQ only
(10_state.md R28): every other instruction does the same under any FL, and a conditional jump does the same under any
two values of FL that are not EQ. -/
def Obligations.FlagsAreWrittenAndReadAsStated : Prop :=
  (∀ (i : Instr) (s t : State), (∀ a b, i ≠ .compare a b) → exec i s = .next t → t.fl = s.fl) ∧
  (∀ (i : Instr) (s : State) (f : Flag), (∀ a, i ≠ .jumpIfEqual a) → (∀ a, i ≠ .jumpIfNotEqual a) →
    (∀ a b, i ≠ .compare a b) → exec i { s with fl := f } = mapNext (fun t => { t with fl := f }) (exec i s)) ∧
  (∀ (a b : Byte) (s t : State) (f : Flag), exec (.compare a b) s = .next t → t.notFaulted →
    exec (.compare a b) { s with fl := f } = .next t) ∧
  (∀ (a b : Byte) (s t : State) (f : Flag), s.status = .running → exec (.compare a b) s = .next t → ¬ t.notFaulted →
    exec (.compare a b) { s with fl := f } = .next { t with fl := f }) ∧
  (∀ (a : Byte) (s : State) (f g : Flag), f ≠ .eq → g ≠ .eq →
    exec (.jumpIfEqual a) { s with fl := f } =
      mapNext (fun t => { t with fl := f }) (exec (.jumpIfEqual a) { s with fl := g }) ∧
    exec (.jumpIfNotEqual a) { s with fl := f } =
      mapNext (fun t => { t with fl := f }) (exec (.jumpIfNotEqual a) { s with fl := g }))

/-- Once a COMPARE has set FL, no step makes it NONE again (45_compare_branch.md R125, corner cases). -/
def Obligations.FlagsNeverBecomeNoneAgain : Prop :=
  ∀ s t : State, s.fl ≠ .none → step s = .next t → t.fl ≠ .none

/-- Each PRINT-REGISTER that completes adds exactly one entry at the end of the output, and nothing else changes it
(10_state.md R31, 42_data_output.md R102). -/
def Obligations.OutputGrowsByOneEntryPerPrint : Prop :=
  ∀ (i : Instr) (s t : State), s.status = .running → exec i s = .next t →
    (∀ a, i = .printRegister a → t.notFaulted → ∃ v, readReg a s = .ok v ∧ t.out = s.out ++ [v]) ∧
    ((∀ a, i ≠ .printRegister a) ∨ ¬ t.notFaulted → t.out = s.out)

/-- A fault discards every write of its instruction, leaves PC at it, records the cause, and is followed by no step
(60_exceptions.md R141, R148). -/
def Obligations.FaultsArePreciseAndTerminal : Prop :=
  ∀ (s t : State) (c : Cause) (p : Nat), s.status = .running → step s = .next t → t.status = .faulted c p →
    t = { s with started := true, status := .faulted c s.pc } ∧
    step t = .fault (.notRunning (.faulted c s.pc))

/-- The nine opcodes with sets_pc = 0 leave PC at P + 1 + n, and there are exactly these nine
(40_execution_loop.md R86, which the spec marks as its inference from R81). -/
def Obligations.GenericAdvanceOfNineOpcodes : Prop :=
  (∀ (i : Instr) (s t : State), setsPc i.variant.opcode = false → exec i s = .next t → t.notFaulted →
    t.pc = s.pc + 1 + operandCount i.variant.opcode) ∧
  (∀ v : Variant, setsPc v.opcode = false ↔
    v ∈ [.halt, .loadImmediate, .printRegister, .multiply, .add, .modulo, .push, .pop, .compare])

/-- The explicit target of a control transfer is a byte; a conditional jump that is not taken leaves P + 2
(40_execution_loop.md R81, 45_compare_branch.md R130). -/
def Obligations.ExplicitTargetsAreBytes : Prop :=
  ∀ (i : Instr) (s t : State), setsPc i.variant.opcode = true → exec i s = .next t → t.notFaulted →
    t.pc ≤ 255 ∨ (t.pc = s.pc + 2 ∧ ∃ a, i = .jumpIfEqual a ∨ i = .jumpIfNotEqual a)

/-- Memory is written by PUSH and CALL only (20_memory.md R42). -/
def Obligations.OnlyPushAndCallWriteMemory : Prop :=
  ∀ (i : Instr) (s t : State), (∀ a, i ≠ .push a) → (∀ a, i ≠ .call a) → exec i s = .next t → t.mem = s.mem

/-- A step changes neither the machine's parameters nor the host's cancellation request. Both are fields of the model
(assumption log 3 and 6). -/
def Obligations.StepKeepsParametersAndRequest : Prop :=
  ∀ s t : State, step s = .next t → t.params = s.params ∧ t.cancelRequested = s.cancelRequested

/-- An instruction writes no register but those of column "writes" of 10_state.md R22. -/
def Obligations.RegistersWrittenAsListed : Prop :=
  ∀ (i : Instr) (s t : State) (r : Fin 8), exec i s = .next t → (∀ x ∈ writesReg i, x.toNat ≠ r) →
    t.reg[r] = s.reg[r]

/-- An instruction reads no register but those of column "reads" of 10_state.md R22: another value in a register it
neither reads nor writes changes nothing but that register. -/
def Obligations.RegistersReadAsListed : Prop :=
  ∀ (i : Instr) (s : State) (r : Fin 8) (v : Byte), (∀ x ∈ readsReg s.fl i, x.toNat ≠ r) →
    (∀ x ∈ writesReg i, x.toNat ≠ r) →
    exec i (s.withReg r v) = mapNext (fun t => t.withReg r v) (exec i s)

/-- From Running, an instruction makes the core Halted exactly if it is HALT, and never Cancelled; from a cancellation
request a step makes it Cancelled (10_state.md R27). -/
def Obligations.StatusChangesAsListed : Prop :=
  (∀ (i : Instr) (s t : State), s.status = .running → exec i s = .next t →
    (t.status = .halted ↔ i = .halt) ∧ t.status ≠ .cancelled ∧ (t.notFaulted → i ≠ .halt → t.status = .running)) ∧
  (∀ s t : State, step s = .next t → s.status = .running ∧ (t.status = .cancelled ↔ s.cancelRequested = true))

/-! ## Frames -/

/-- HALT, LOAD-IMMEDIATE, PRINT-REGISTER, MULTIPLY, ADD, MODULO, COMPARE, JUMP, JUMP-IF-EQUAL and JUMP-IF-NOT-EQUAL leave
every byte of memory and every register but the destination as they were; FL but for COMPARE, the output but for
PRINT-REGISTER, the status but for HALT and a fault; and always `params`, `started` and `cancelRequested`. -/
def Obligations.FrameOfRegisterInstructions : Prop :=
  ∀ (i : Instr) (s t : State), i.variant ∉ [.push, .pop, .call, .ret] → exec i s = .next t →
    (∀ a, t.mem.read a = s.mem.read a) ∧
    (∀ r : Fin 8, (∀ x ∈ writesReg i, x.toNat ≠ r) → t.reg[r] = s.reg[r]) ∧
    (i.variant ≠ .compare → t.fl = s.fl) ∧ (i.variant ≠ .printRegister → t.out = s.out) ∧
    (i.variant ≠ .halt → t.status = s.status ∨ ∃ c, t = s.faultedWith c) ∧
    t.params = s.params ∧ t.started = s.started ∧ t.cancelRequested = s.cancelRequested

/-- PUSH and CALL store at the slot that `reserveSlot` gives, one byte, and leave every other byte of memory, every
register but R7, FL, the output, `params`, `started` and `cancelRequested` as they were. -/
def Obligations.FrameOfStoringInstructions : Prop :=
  ∀ (i : Instr) (s t : State), i.variant ∈ [.push, .call] → exec i s = .next t →
    (∀ a, (∀ slot u, reserveSlot s = .ok (slot, u) → a ≠ slot.toNat) → t.mem.read a = s.mem.read a) ∧
    (∀ r : Fin 8, r ≠ 7 → t.reg[r] = s.reg[r]) ∧ t.fl = s.fl ∧ t.out = s.out ∧
    (t.status = s.status ∨ ∃ c, t = s.faultedWith c) ∧
    t.params = s.params ∧ t.started = s.started ∧ t.cancelRequested = s.cancelRequested

/-- POP and RETURN leave every byte of memory, every register but R7 and POP's destination, FL, the output, `params`,
`started` and `cancelRequested` as they were. -/
def Obligations.FrameOfPoppingInstructions : Prop :=
  ∀ (i : Instr) (s t : State), i.variant ∈ [.pop, .ret] → exec i s = .next t →
    (∀ a, t.mem.read a = s.mem.read a) ∧
    (∀ r : Fin 8, r ≠ 7 → (∀ a, i = .pop a → a.toNat ≠ r) → t.reg[r] = s.reg[r]) ∧ t.fl = s.fl ∧ t.out = s.out ∧
    (t.status = s.status ∨ ∃ c, t = s.faultedWith c) ∧
    t.params = s.params ∧ t.started = s.started ∧ t.cancelRequested = s.cancelRequested

/-! ## What each instruction does -/

/-- HALT (40_execution_loop.md R85): status Halted and PC = P + 1, wherever it stands; no step follows.
That PC is P + 1 is an inference of the spec's own, from R81; that a halted core's step is the model's fault `notRunning`
is assumption log 4. -/
def Obligations.HaltStopsTheCore : Prop :=
  encode .halt = [0x01] ∧
  ∀ s : State, exec .halt s = .next { s with status := .halted, pc := s.pc + 1 } ∧
    step { s with status := .halted, pc := s.pc + 1 } = .fault (.notRunning .halted)

/-- LOAD-IMMEDIATE (42_data_output.md R100): x[a] is the literal; an index of 8 or more faults. -/
def Obligations.LoadImmediateResult : Prop :=
  ∀ (a imm : Byte) (s : State), encode (.loadImmediate a imm) = [0x82, a, imm] ∧
    (∀ h : a.toNat < 8,
      exec (.loadImmediate a imm) s = .next { s with reg := s.reg.set a.toNat imm, pc := s.pc + 3 }) ∧
    (8 ≤ a.toNat → exec (.loadImmediate a imm) s = .next (s.faultedWith (.badRegister a)))

/-- PRINT-REGISTER (42_data_output.md R101): x[a] is appended to the output; an index of 8 or more faults.
A register always holds a value here (assumption log 1), so ReadUnwritten of a register does not arise, in this statement
and the ones on MULTIPLY, ADD, MODULO, PUSH, CALL, COMPARE and the jumps. -/
def Obligations.PrintRegisterResult : Prop :=
  ∀ (a : Byte) (s : State), encode (.printRegister a) = [0x47, a] ∧
    (∀ h : a.toNat < 8, exec (.printRegister a) s = .next { s with out := s.out ++ [s.reg[a.toNat]], pc := s.pc + 2 }) ∧
    (8 ≤ a.toNat → exec (.printRegister a) s = .next (s.faultedWith (.badRegister a)))

/-- MULTIPLY (41_alu.md R93): the low 8 bits of the product; the bad register named first faults. -/
def Obligations.MultiplyResult : Prop :=
  ∀ (a b : Byte) (s : State), encode (.multiply a b) = [0xA2, a, b] ∧
    (∀ (ha : a.toNat < 8) (hb : b.toNat < 8), exec (.multiply a b) s = .next { s with
      reg := s.reg.set a.toNat (BitVec.ofNat 8 (s.reg[a.toNat].toNat * s.reg[b.toNat].toNat % 256)), pc := s.pc + 3 }) ∧
    (8 ≤ a.toNat → exec (.multiply a b) s = .next (s.faultedWith (.badRegister a))) ∧
    (a.toNat < 8 → 8 ≤ b.toNat → exec (.multiply a b) s = .next (s.faultedWith (.badRegister b)))

/-- ADD (41_alu.md R92): the sum modulo 256; the bad register named first faults. -/
def Obligations.AddResult : Prop :=
  ∀ (a b : Byte) (s : State), encode (.add a b) = [0xA0, a, b] ∧
    (∀ (ha : a.toNat < 8) (hb : b.toNat < 8), exec (.add a b) s = .next { s with
      reg := s.reg.set a.toNat (BitVec.ofNat 8 ((s.reg[a.toNat].toNat + s.reg[b.toNat].toNat) % 256)),
      pc := s.pc + 3 }) ∧
    (8 ≤ a.toNat → exec (.add a b) s = .next (s.faultedWith (.badRegister a))) ∧
    (a.toNat < 8 → 8 ≤ b.toNat → exec (.add a b) s = .next (s.faultedWith (.badRegister b)))

/-- MODULO (41_alu.md R94): the unsigned remainder; a zero divisor faults, after the register checks. -/
def Obligations.ModuloResult : Prop :=
  ∀ (a b : Byte) (s : State), encode (.modulo a b) = [0xA4, a, b] ∧
    (∀ (ha : a.toNat < 8) (hb : b.toNat < 8), s.reg[b.toNat] ≠ 0 → exec (.modulo a b) s = .next { s with
      reg := s.reg.set a.toNat (BitVec.ofNat 8 (s.reg[a.toNat].toNat % s.reg[b.toNat].toNat)), pc := s.pc + 3 }) ∧
    (∀ (_ : a.toNat < 8) (hb : b.toNat < 8), s.reg[b.toNat] = 0 →
      exec (.modulo a b) s = .next (s.faultedWith (.divideByZero b))) ∧
    (8 ≤ a.toNat → exec (.modulo a b) s = .next (s.faultedWith (.badRegister a))) ∧
    (a.toNat < 8 → 8 ≤ b.toNat → exec (.modulo a b) s = .next (s.faultedWith (.badRegister b)))

/-- PUSH (43_stack.md R106, R108): SP - 1, then the value of x[a] as it is after the decrement at the new SP; the faults
in the order of the pseudocode. What PUSH R7 stores is an inference of the spec's own (D15). -/
def Obligations.PushResult : Prop :=
  ∀ (a : Byte) (s : State), encode (.push a) = [0x45, a] ∧
    (∀ h : a.toNat < 8, 0 < s.reg[7].toNat → s.reg[7].toNat - 1 < s.params.memSize →
      exec (.push a) s = .next { s with
        reg := s.reg.set 7 (s.reg[7] - 1)
        mem := s.mem.write (s.reg[7].toNat - 1) (if a = 7 then s.reg[7] - 1 else s.reg[a.toNat])
        pc := s.pc + 2 }) ∧
    (s.reg[7].toNat = 0 → exec (.push a) s = .next (s.faultedWith (.stackOverflow 0))) ∧
    (0 < s.reg[7].toNat → s.params.memSize ≤ s.reg[7].toNat - 1 →
      exec (.push a) s = .next (s.faultedWith (.memOutOfBounds .stackWrite (s.reg[7].toNat - 1)))) ∧
    (0 < s.reg[7].toNat → s.reg[7].toNat - 1 < s.params.memSize → 8 ≤ a.toNat →
      exec (.push a) s = .next (s.faultedWith (.badRegister a)))

/-- POP (43_stack.md R107, R109): the byte at SP into x[a], then x[7] + 1, where POP R7 leaves the popped byte + 1; the
faults in the order of the pseudocode, and ReadUnwritten of an unwritten cell (assumption log 2 and 4). What POP R7
leaves is an inference of the spec's own (D15). -/
def Obligations.PopResult : Prop :=
  ∀ (a : Byte) (s : State), s.params.spInitLegal → encode (.pop a) = [0x46, a] ∧
    (s.params.spInit.toNat ≤ s.reg[7].toNat → exec (.pop a) s = .next (s.faultedWith (.stackUnderflow s.reg[7]))) ∧
    (s.reg[7].toNat < s.params.spInit.toNat → s.mem.read s.reg[7].toNat = none →
      exec (.pop a) s = .fault (.readUnwritten s.reg[7].toNat)) ∧
    (∀ v, s.reg[7].toNat < s.params.spInit.toNat → s.mem.read s.reg[7].toNat = some v →
      (∀ h : a.toNat < 8, a ≠ 7 → exec (.pop a) s = .next { s with
        reg := (s.reg.set a.toNat v).set 7 (s.reg[7] + 1), pc := s.pc + 2 }) ∧
      (a = 7 → v ≠ 255 → exec (.pop a) s = .next { s with reg := s.reg.set 7 (v + 1), pc := s.pc + 2 }) ∧
      (a = 7 → v = 255 → exec (.pop a) s = .next (s.faultedWith (.stackUnderflow s.reg[7]))) ∧
      (8 ≤ a.toNat → exec (.pop a) s = .next (s.faultedWith (.badRegister a))))

/-- CALL (44_call_return.md R115, R117): P + 2 is pushed and PC is x[a] as it is after the push; the faults in the order
of the pseudocode. Where CALL R7 goes is an inference of the spec's own (D15). -/
def Obligations.CallResult : Prop :=
  ∀ (a : Byte) (s : State), encode (.call a) = [0x50, a] ∧
    (∀ h : a.toNat < 8, s.pc + 2 ≤ 255 → 0 < s.reg[7].toNat → s.reg[7].toNat - 1 < s.params.memSize →
      exec (.call a) s = .next { s with
        reg := s.reg.set 7 (s.reg[7] - 1)
        mem := s.mem.write (s.reg[7].toNat - 1) (BitVec.ofNat 8 (s.pc + 2))
        pc := if a = 7 then s.reg[7].toNat - 1 else s.reg[a.toNat].toNat }) ∧
    (255 < s.pc + 2 → exec (.call a) s = .next (s.faultedWith (.returnAddressOverflow (s.pc + 2)))) ∧
    (s.pc + 2 ≤ 255 → s.reg[7].toNat = 0 → exec (.call a) s = .next (s.faultedWith (.stackOverflow 0))) ∧
    (s.pc + 2 ≤ 255 → 0 < s.reg[7].toNat → s.params.memSize ≤ s.reg[7].toNat - 1 →
      exec (.call a) s = .next (s.faultedWith (.memOutOfBounds .stackWrite (s.reg[7].toNat - 1)))) ∧
    (s.pc + 2 ≤ 255 → 0 < s.reg[7].toNat → s.reg[7].toNat - 1 < s.params.memSize → 8 ≤ a.toNat →
      exec (.call a) s = .next (s.faultedWith (.badRegister a)))

/-- RETURN (44_call_return.md R116): PC is the byte at SP, and SP + 1; StackUnderflow at or above SP_INIT, and
ReadUnwritten of an unwritten cell. -/
def Obligations.ReturnResult : Prop :=
  encode .ret = [0x11] ∧ ∀ s : State, s.params.spInitLegal →
    (s.params.spInit.toNat ≤ s.reg[7].toNat → exec .ret s = .next (s.faultedWith (.stackUnderflow s.reg[7]))) ∧
    (s.reg[7].toNat < s.params.spInit.toNat → s.mem.read s.reg[7].toNat = none →
      exec .ret s = .fault (.readUnwritten s.reg[7].toNat)) ∧
    (∀ v, s.reg[7].toNat < s.params.spInit.toNat → s.mem.read s.reg[7].toNat = some v →
      exec .ret s = .next { s with reg := s.reg.set 7 (s.reg[7] + 1), pc := v.toNat })

/-- COMPARE (45_compare_branch.md R125, 41_alu.md R95): FL is EQ, LT or GT by the unsigned values; the bad register named
first faults. -/
def Obligations.CompareResult : Prop :=
  ∀ (a b : Byte) (s : State), encode (.compare a b) = [0xA7, a, b] ∧
    (∀ (ha : a.toNat < 8) (hb : b.toNat < 8), exec (.compare a b) s = .next { s with
      fl := if s.reg[a.toNat].toNat = s.reg[b.toNat].toNat then .eq
        else if s.reg[a.toNat].toNat < s.reg[b.toNat].toNat then .lt else .gt
      pc := s.pc + 3 }) ∧
    (8 ≤ a.toNat → exec (.compare a b) s = .next (s.faultedWith (.badRegister a))) ∧
    (a.toNat < 8 → 8 ≤ b.toNat → exec (.compare a b) s = .next (s.faultedWith (.badRegister b)))

/-- JUMP (45_compare_branch.md R126): PC is x[a]; an index of 8 or more faults. -/
def Obligations.JumpResult : Prop :=
  ∀ (a : Byte) (s : State), encode (.jump a) = [0x54, a] ∧
    (∀ h : a.toNat < 8, exec (.jump a) s = .next { s with pc := s.reg[a.toNat].toNat }) ∧
    (8 ≤ a.toNat → exec (.jump a) s = .next (s.faultedWith (.badRegister a)))

/-- JUMP-IF-EQUAL (45_compare_branch.md R127): PC is x[a] if FL is EQ, else P + 2 whatever the index. -/
def Obligations.JumpIfEqualResult : Prop :=
  ∀ (a : Byte) (s : State), encode (.jumpIfEqual a) = [0x55, a] ∧
    (∀ h : a.toNat < 8, s.fl = .eq → exec (.jumpIfEqual a) s = .next { s with pc := s.reg[a.toNat].toNat }) ∧
    (s.fl ≠ .eq → exec (.jumpIfEqual a) s = .next { s with pc := s.pc + 2 }) ∧
    (s.fl = .eq → 8 ≤ a.toNat → exec (.jumpIfEqual a) s = .next (s.faultedWith (.badRegister a)))

/-- JUMP-IF-NOT-EQUAL (45_compare_branch.md R128): PC is x[a] if FL is not EQ, else P + 2 whatever the index. -/
def Obligations.JumpIfNotEqualResult : Prop :=
  ∀ (a : Byte) (s : State), encode (.jumpIfNotEqual a) = [0x56, a] ∧
    (∀ h : a.toNat < 8, s.fl ≠ .eq → exec (.jumpIfNotEqual a) s = .next { s with pc := s.reg[a.toNat].toNat }) ∧
    (s.fl = .eq → exec (.jumpIfNotEqual a) s = .next { s with pc := s.pc + 2 }) ∧
    (s.fl ≠ .eq → 8 ≤ a.toNat → exec (.jumpIfNotEqual a) s = .next (s.faultedWith (.badRegister a)))

/-! ## Laws over two instructions -/

/-- PUSH Ra then POP Ra restores every register, R7 as well, for every a; PUSH Ra then POP Rb copies x[a] to x[b] for
a and b other than 7 (43_stack.md R110). -/
def Obligations.PushThenPopRestores : Prop :=
  ∀ (a : Byte) (s : State) (ha : a.toNat < 8), 0 < s.reg[7].toNat → s.reg[7].toNat ≤ s.params.spInit.toNat →
    s.reg[7].toNat - 1 < s.params.memSize →
    (∃ t u, exec (.push a) s = .next t ∧ exec (.pop a) t = .next u ∧ u.reg = s.reg ∧ u.pc = s.pc + 4 ∧
      (a = 7 → u.mem.read (s.reg[7].toNat - 1) = some (s.reg[7] - 1))) ∧
    (∀ (b : Byte) (hb : b.toNat < 8), a ≠ 7 → b ≠ 7 → ∃ t u, exec (.push a) s = .next t ∧ exec (.pop b) t = .next u ∧
      u.reg = s.reg.set b.toNat s.reg[a.toNat] ∧ u.pc = s.pc + 4)

/-- A RETURN after a CALL gives P + 2 and the SP before the call, at once or after any callee that leaves SP and the
stored byte as the CALL left them (44_call_return.md R118). -/
def Obligations.CallThenReturnRestores : Prop :=
  ∀ (a : Byte) (s : State), a.toNat < 8 → s.pc + 2 ≤ 255 → 0 < s.reg[7].toNat →
    s.reg[7].toNat ≤ s.params.spInit.toNat → s.reg[7].toNat - 1 < s.params.memSize →
    ∃ t, exec (.call a) s = .next t ∧ (∃ u, exec .ret t = .next u ∧ u.pc = s.pc + 2 ∧ u.reg = s.reg) ∧
      ∀ w : State, w.params = s.params → w.reg[7] = t.reg[7] →
        w.mem.read (s.reg[7].toNat - 1) = t.mem.read (s.reg[7].toNat - 1) →
        ∃ u, exec .ret w = .next u ∧ u.pc = s.pc + 2 ∧ u.reg[7] = s.reg[7]

/-- After a COMPARE, JUMP-IF-EQUAL is taken exactly if the registers are equal and JUMP-IF-NOT-EQUAL exactly if they are
not; the other one goes on (45_compare_branch.md R129). -/
def Obligations.ConditionalJumpsAreComplementary : Prop :=
  (∀ (a b c : Byte) (s : State) (ha : a.toNat < 8) (hb : b.toNat < 8) (hc : c.toNat < 8),
    ∃ t u w, exec (.compare a b) s = .next t ∧ exec (.jumpIfEqual c) t = .next u ∧
      exec (.jumpIfNotEqual c) t = .next w ∧
      u.pc = (if s.reg[a.toNat] = s.reg[b.toNat] then s.reg[c.toNat].toNat else s.pc + 5) ∧
      w.pc = (if s.reg[a.toNat] = s.reg[b.toNat] then s.pc + 5 else s.reg[c.toNat].toNat)) ∧
  (∀ (c : Byte) (s : State) (hc : c.toNat < 8), ∃ u w, exec (.jumpIfEqual c) s = .next u ∧
    exec (.jumpIfNotEqual c) s = .next w ∧
    ((u.pc = s.reg[c.toNat].toNat ∧ w.pc = s.pc + 2) ∨ (u.pc = s.pc + 2 ∧ w.pc = s.reg[c.toNat].toNat)))

/-- The byte a PUSH or a CALL stores is the byte the next fetch of that cell returns (20_memory.md R52, which the spec
marks as its inference). -/
def Obligations.StoredBytesAreFetchedAtOnce : Prop :=
  ∀ (a : Byte) (s : State) (ha : a.toNat < 8), 0 < s.reg[7].toNat → s.reg[7].toNat - 1 < s.params.memSize →
    (∃ t, exec (.push a) s = .next t ∧
      memRead .fetch (s.reg[7].toNat - 1) t = .ok (if a = 7 then s.reg[7] - 1 else s.reg[a.toNat])) ∧
    (s.pc + 2 ≤ 255 → ∃ t, exec (.call a) s = .next t ∧
      memRead .fetch (s.reg[7].toNat - 1) t = .ok (BitVec.ofNat 8 (s.pc + 2)))

/-! ## The host interface -/

/-- Reset (10_state.md R33, 70_reset_and_hazards.md R165): PC 0, FL NONE, R7 = SP_INIT, R0..R6 = REG_INIT, memory =
MEM_INIT, Running, not started, no output. The model's choices: on this hardware MEM_SIZE is 256 and SP_INIT 244, the
defaults of 00_scope.md R5, and a reset keeps the parameters (assumption log 3); a reset clears the cancellation request
(assumption log 6); no cell holds a value after reset, the default MEM_INIT (assumption log 2). The default of REG_INIT
is assumption log 1 and not stated. -/
def Obligations.ResetEstablishesTheState : Prop :=
  (∀ s : State, (hostReset s).pc = 0 ∧ (hostReset s).fl = .none ∧ (hostReset s).reg[7] = s.params.spInit ∧
    (∀ r : Fin 7, (hostReset s).reg[r.val] = s.params.regInit[r]) ∧
    (∀ a, (hostReset s).mem.read a = Memory.read s.params.memInit a) ∧
    (hostReset s).status = .running ∧ (hostReset s).started = false ∧ (hostReset s).out = [] ∧
    (hostReset s).params = s.params ∧ (hostReset s).cancelRequested = false) ∧
  State.reset.params.memSize = 256 ∧ State.reset.reg[7] = 244 ∧ State.reset.pc = 0 ∧ State.reset.fl = .none ∧
  State.reset.status = .running ∧ State.reset.started = false ∧ State.reset.out = [] ∧
  (∀ a, State.reset.mem.read a = none)

/-- A Load is admitted exactly after reset and before the first step, below MEM_SIZE, for a byte, and writes that one
cell; otherwise nothing is written (60_exceptions.md R152). -/
def Obligations.LoadIsAdmittedExactly : Prop :=
  ∀ (addr value : Nat) (s t : State), load addr value s = some t ↔
    s.status = .running ∧ s.started = false ∧ addr < s.params.memSize ∧ value ≤ 255 ∧
      t = { s with mem := s.mem.write addr (BitVec.ofNat 8 value) }

/-- An image of bytes that fits is loaded whole from address 0 and writes nothing else; a longer one is refused at its
byte MEM_SIZE (60_exceptions.md R152). That the bytes before the refused one are written is the model's choice
(assumption log 5). -/
def Obligations.ImageIsLoadedFromZero : Prop :=
  ∀ (image : List Nat) (s : State), s.status = .running → s.started = false → (∀ v ∈ image, v ≤ 255) →
    ∃ m : Memory, (loadImage image s).1 = { s with mem := m } ∧
      (∀ (k : Nat) (h : k < image.length), k < s.params.memSize → m.read k = some (BitVec.ofNat 8 image[k])) ∧
      (∀ k, image.length ≤ k ∨ s.params.memSize ≤ k → m.read k = s.mem.read k) ∧
      (loadImage image s).2 = if image.length ≤ s.params.memSize then none else some s.params.memSize

/-- A run of j + k steps is a run of j steps and then one of k steps, so the sequence of states is the same whether the
host runs or steps (60_exceptions.md R153); and a run ends at the first state whose status is not Running, which it
answers as it is (40_execution_loop.md R84, 70_reset_and_hazards.md R172). The bound is assumption log 10. -/
def Obligations.RunIsRepeatedStep : Prop :=
  (∀ (s : State), s.status = .running → runFor 1 s = step s) ∧
  (∀ (j k : Nat) (s : State), runFor (j + k) s =
    match runFor j s with
    | .next t => runFor k t
    | .fault f => .fault f
    | .refused q => .refused q) ∧
  (∀ (k : Nat) (s : State), s.status ≠ .running → runFor k s = .next s)

/-- The cause codes are 1 to 7, one for each cause and 0 for no fault (60_exceptions.md R142), and the exit code is 0 for
Halted and 1 for every other terminal status, with none while Running (R156). -/
def Obligations.StatusCodesAndExitCodes : Prop :=
  (∀ (op i b sp : Byte) (k : AccessKind) (n : Nat) (p : Nat),
    statusCode (.faulted (.decodeError op) p) = 1 ∧ statusCode (.faulted (.memOutOfBounds k n) p) = 2 ∧
    statusCode (.faulted (.stackOverflow sp) p) = 3 ∧ statusCode (.faulted (.stackUnderflow sp) p) = 4 ∧
    statusCode (.faulted (.divideByZero b) p) = 5 ∧ statusCode (.faulted (.badRegister i) p) = 6 ∧
    statusCode (.faulted (.returnAddressOverflow n) p) = 7) ∧
  statusCode .running = 0 ∧ statusCode .halted = 0 ∧ statusCode .cancelled = 0 ∧
  exitCode .halted = some 0 ∧ exitCode .cancelled = some 1 ∧ (∀ c p, exitCode (.faulted c p) = some 1) ∧
  exitCode .running = none
end

