-- ==== Sys2Proof/Laws/Decode.lean ====
section
/-!
SUPPORT. The laws of the opcode byte: the table, the dispatch and the operand count.
-/

namespace Sys2Proof

/-- The dispatch of a variant's own opcode byte. -/
@[simp] theorem dispatch_opcode (v : Variant) : dispatch v.opcode = some v := by
  cases v <;> rfl

/-- A byte that dispatches to a variant is that variant's opcode byte. -/
theorem opcode_of_dispatch {op : Byte} {v : Variant} (h : dispatch op = some v) : op = v.opcode := by
  unfold dispatch at h
  obtain ⟨row, hrow, rfl⟩ := Option.map_eq_some_iff.1 h
  have hmem := List.mem_of_find?_eq_some hrow
  have hcode : row.code = op := by simpa using List.find?_some hrow
  have hall : ∀ r ∈ opcodeTable, r.code = r.variant.opcode := by decide
  rw [← hcode, hall row hmem]

/-! ### The bits of each opcode byte (30_encoding.md R63) -/

@[simp] theorem operandCount_halt : operandCount Variant.halt.opcode = 0 := by decide
@[simp] theorem operandCount_loadImmediate : operandCount Variant.loadImmediate.opcode = 2 := by decide
@[simp] theorem operandCount_printRegister : operandCount Variant.printRegister.opcode = 1 := by decide
@[simp] theorem operandCount_multiply : operandCount Variant.multiply.opcode = 2 := by decide
@[simp] theorem operandCount_add : operandCount Variant.add.opcode = 2 := by decide
@[simp] theorem operandCount_modulo : operandCount Variant.modulo.opcode = 2 := by decide
@[simp] theorem operandCount_push : operandCount Variant.push.opcode = 1 := by decide
@[simp] theorem operandCount_pop : operandCount Variant.pop.opcode = 1 := by decide
@[simp] theorem operandCount_call : operandCount Variant.call.opcode = 1 := by decide
@[simp] theorem operandCount_ret : operandCount Variant.ret.opcode = 0 := by decide
@[simp] theorem operandCount_compare : operandCount Variant.compare.opcode = 2 := by decide
@[simp] theorem operandCount_jump : operandCount Variant.jump.opcode = 1 := by decide
@[simp] theorem operandCount_jumpIfEqual : operandCount Variant.jumpIfEqual.opcode = 1 := by decide
@[simp] theorem operandCount_jumpIfNotEqual : operandCount Variant.jumpIfNotEqual.opcode = 1 := by decide
@[simp] theorem setsPc_halt : setsPc Variant.halt.opcode = false := by decide
@[simp] theorem setsPc_loadImmediate : setsPc Variant.loadImmediate.opcode = false := by decide
@[simp] theorem setsPc_printRegister : setsPc Variant.printRegister.opcode = false := by decide
@[simp] theorem setsPc_multiply : setsPc Variant.multiply.opcode = false := by decide
@[simp] theorem setsPc_add : setsPc Variant.add.opcode = false := by decide
@[simp] theorem setsPc_modulo : setsPc Variant.modulo.opcode = false := by decide
@[simp] theorem setsPc_push : setsPc Variant.push.opcode = false := by decide
@[simp] theorem setsPc_pop : setsPc Variant.pop.opcode = false := by decide
@[simp] theorem setsPc_call : setsPc Variant.call.opcode = true := by decide
@[simp] theorem setsPc_ret : setsPc Variant.ret.opcode = true := by decide
@[simp] theorem setsPc_compare : setsPc Variant.compare.opcode = false := by decide
@[simp] theorem setsPc_jump : setsPc Variant.jump.opcode = true := by decide
@[simp] theorem setsPc_jumpIfEqual : setsPc Variant.jumpIfEqual.opcode = true := by decide
@[simp] theorem setsPc_jumpIfNotEqual : setsPc Variant.jumpIfNotEqual.opcode = true := by decide

/-- A variant has at most two operand bytes. -/
theorem operandCount_opcode_le (v : Variant) : operandCount v.opcode ≤ 2 := by
  cases v <;> decide

/-- The opcode byte of an assembled instruction is its variant's. -/
@[simp] theorem variant_assemble (v : Variant) (a b : Byte) : (assemble v a b).variant = v := by
  cases v <;> rfl

end Sys2Proof
end

