-- ==== Sys2Proof/Laws/State.lean ====
section
/-!
SUPPORT. One lemma per field per update of State, so that no later proof unfolds a record update.
-/

namespace Sys2Proof.Machine

/-! ### putReg -/

@[simp] theorem State.putReg_params (s : State) (r : Vector Byte 8) : (s.putReg r).params = s.params := rfl
@[simp] theorem State.putReg_reg (s : State) (r : Vector Byte 8) : (s.putReg r).reg = r := rfl
@[simp] theorem State.putReg_pc (s : State) (r : Vector Byte 8) : (s.putReg r).pc = s.pc := rfl
@[simp] theorem State.putReg_fl (s : State) (r : Vector Byte 8) : (s.putReg r).fl = s.fl := rfl
@[simp] theorem State.putReg_mem (s : State) (r : Vector Byte 8) : (s.putReg r).mem = s.mem := rfl
@[simp] theorem State.putReg_status (s : State) (r : Vector Byte 8) : (s.putReg r).status = s.status := rfl
@[simp] theorem State.putReg_started (s : State) (r : Vector Byte 8) : (s.putReg r).started = s.started := rfl
@[simp] theorem State.putReg_out (s : State) (r : Vector Byte 8) : (s.putReg r).out = s.out := rfl
@[simp] theorem State.putReg_cancelRequested (s : State) (r : Vector Byte 8) : (s.putReg r).cancelRequested = s.cancelRequested := rfl

/-! ### setPc -/

@[simp] theorem State.setPc_params (s : State) (p : Nat) : (s.setPc p).params = s.params := rfl
@[simp] theorem State.setPc_reg (s : State) (p : Nat) : (s.setPc p).reg = s.reg := rfl
@[simp] theorem State.setPc_pc (s : State) (p : Nat) : (s.setPc p).pc = p := rfl
@[simp] theorem State.setPc_fl (s : State) (p : Nat) : (s.setPc p).fl = s.fl := rfl
@[simp] theorem State.setPc_mem (s : State) (p : Nat) : (s.setPc p).mem = s.mem := rfl
@[simp] theorem State.setPc_status (s : State) (p : Nat) : (s.setPc p).status = s.status := rfl
@[simp] theorem State.setPc_started (s : State) (p : Nat) : (s.setPc p).started = s.started := rfl
@[simp] theorem State.setPc_out (s : State) (p : Nat) : (s.setPc p).out = s.out := rfl
@[simp] theorem State.setPc_cancelRequested (s : State) (p : Nat) : (s.setPc p).cancelRequested = s.cancelRequested := rfl

/-! ### setFlag -/

@[simp] theorem State.setFlag_params (s : State) (f : Flag) : (s.setFlag f).params = s.params := rfl
@[simp] theorem State.setFlag_reg (s : State) (f : Flag) : (s.setFlag f).reg = s.reg := rfl
@[simp] theorem State.setFlag_pc (s : State) (f : Flag) : (s.setFlag f).pc = s.pc := rfl
@[simp] theorem State.setFlag_fl (s : State) (f : Flag) : (s.setFlag f).fl = f := rfl
@[simp] theorem State.setFlag_mem (s : State) (f : Flag) : (s.setFlag f).mem = s.mem := rfl
@[simp] theorem State.setFlag_status (s : State) (f : Flag) : (s.setFlag f).status = s.status := rfl
@[simp] theorem State.setFlag_started (s : State) (f : Flag) : (s.setFlag f).started = s.started := rfl
@[simp] theorem State.setFlag_out (s : State) (f : Flag) : (s.setFlag f).out = s.out := rfl
@[simp] theorem State.setFlag_cancelRequested (s : State) (f : Flag) : (s.setFlag f).cancelRequested = s.cancelRequested := rfl

/-! ### putMem -/

@[simp] theorem State.putMem_params (s : State) (m : Memory) : (s.putMem m).params = s.params := rfl
@[simp] theorem State.putMem_reg (s : State) (m : Memory) : (s.putMem m).reg = s.reg := rfl
@[simp] theorem State.putMem_pc (s : State) (m : Memory) : (s.putMem m).pc = s.pc := rfl
@[simp] theorem State.putMem_fl (s : State) (m : Memory) : (s.putMem m).fl = s.fl := rfl
@[simp] theorem State.putMem_mem (s : State) (m : Memory) : (s.putMem m).mem = m := rfl
@[simp] theorem State.putMem_status (s : State) (m : Memory) : (s.putMem m).status = s.status := rfl
@[simp] theorem State.putMem_started (s : State) (m : Memory) : (s.putMem m).started = s.started := rfl
@[simp] theorem State.putMem_out (s : State) (m : Memory) : (s.putMem m).out = s.out := rfl
@[simp] theorem State.putMem_cancelRequested (s : State) (m : Memory) : (s.putMem m).cancelRequested = s.cancelRequested := rfl

/-! ### setStatus -/

@[simp] theorem State.setStatus_params (s : State) (st : Status) : (s.setStatus st).params = s.params := rfl
@[simp] theorem State.setStatus_reg (s : State) (st : Status) : (s.setStatus st).reg = s.reg := rfl
@[simp] theorem State.setStatus_pc (s : State) (st : Status) : (s.setStatus st).pc = s.pc := rfl
@[simp] theorem State.setStatus_fl (s : State) (st : Status) : (s.setStatus st).fl = s.fl := rfl
@[simp] theorem State.setStatus_mem (s : State) (st : Status) : (s.setStatus st).mem = s.mem := rfl
@[simp] theorem State.setStatus_status (s : State) (st : Status) : (s.setStatus st).status = st := rfl
@[simp] theorem State.setStatus_started (s : State) (st : Status) : (s.setStatus st).started = s.started := rfl
@[simp] theorem State.setStatus_out (s : State) (st : Status) : (s.setStatus st).out = s.out := rfl
@[simp] theorem State.setStatus_cancelRequested (s : State) (st : Status) : (s.setStatus st).cancelRequested = s.cancelRequested := rfl

/-! ### markStarted -/

@[simp] theorem State.markStarted_params (s : State) : (s.markStarted).params = s.params := rfl
@[simp] theorem State.markStarted_reg (s : State) : (s.markStarted).reg = s.reg := rfl
@[simp] theorem State.markStarted_pc (s : State) : (s.markStarted).pc = s.pc := rfl
@[simp] theorem State.markStarted_fl (s : State) : (s.markStarted).fl = s.fl := rfl
@[simp] theorem State.markStarted_mem (s : State) : (s.markStarted).mem = s.mem := rfl
@[simp] theorem State.markStarted_status (s : State) : (s.markStarted).status = s.status := rfl
@[simp] theorem State.markStarted_started (s : State) : (s.markStarted).started = true := rfl
@[simp] theorem State.markStarted_out (s : State) : (s.markStarted).out = s.out := rfl
@[simp] theorem State.markStarted_cancelRequested (s : State) : (s.markStarted).cancelRequested = s.cancelRequested := rfl

/-! ### emit -/

@[simp] theorem State.emit_params (s : State) (v : Byte) : (s.emit v).params = s.params := rfl
@[simp] theorem State.emit_reg (s : State) (v : Byte) : (s.emit v).reg = s.reg := rfl
@[simp] theorem State.emit_pc (s : State) (v : Byte) : (s.emit v).pc = s.pc := rfl
@[simp] theorem State.emit_fl (s : State) (v : Byte) : (s.emit v).fl = s.fl := rfl
@[simp] theorem State.emit_mem (s : State) (v : Byte) : (s.emit v).mem = s.mem := rfl
@[simp] theorem State.emit_status (s : State) (v : Byte) : (s.emit v).status = s.status := rfl
@[simp] theorem State.emit_started (s : State) (v : Byte) : (s.emit v).started = s.started := rfl
@[simp] theorem State.emit_out (s : State) (v : Byte) : (s.emit v).out = s.out ++ [v] := rfl
@[simp] theorem State.emit_cancelRequested (s : State) (v : Byte) : (s.emit v).cancelRequested = s.cancelRequested := rfl

/-! ### halt -/

@[simp] theorem State.halt_params (s : State) : (s.halt).params = s.params := rfl
@[simp] theorem State.halt_reg (s : State) : (s.halt).reg = s.reg := rfl
@[simp] theorem State.halt_pc (s : State) : (s.halt).pc = s.pc := rfl
@[simp] theorem State.halt_fl (s : State) : (s.halt).fl = s.fl := rfl
@[simp] theorem State.halt_mem (s : State) : (s.halt).mem = s.mem := rfl
@[simp] theorem State.halt_status (s : State) : (s.halt).status = .halted := rfl
@[simp] theorem State.halt_started (s : State) : (s.halt).started = s.started := rfl
@[simp] theorem State.halt_out (s : State) : (s.halt).out = s.out := rfl
@[simp] theorem State.halt_cancelRequested (s : State) : (s.halt).cancelRequested = s.cancelRequested := rfl

/-! ### takeFault -/

@[simp] theorem State.takeFault_params (s : State) (c : Cause) : (s.takeFault c).params = s.params := rfl
@[simp] theorem State.takeFault_reg (s : State) (c : Cause) : (s.takeFault c).reg = s.reg := rfl
@[simp] theorem State.takeFault_pc (s : State) (c : Cause) : (s.takeFault c).pc = s.pc := rfl
@[simp] theorem State.takeFault_fl (s : State) (c : Cause) : (s.takeFault c).fl = s.fl := rfl
@[simp] theorem State.takeFault_mem (s : State) (c : Cause) : (s.takeFault c).mem = s.mem := rfl
@[simp] theorem State.takeFault_status (s : State) (c : Cause) : (s.takeFault c).status = .faulted c s.pc := rfl
@[simp] theorem State.takeFault_started (s : State) (c : Cause) : (s.takeFault c).started = s.started := rfl
@[simp] theorem State.takeFault_out (s : State) (c : Cause) : (s.takeFault c).out = s.out := rfl
@[simp] theorem State.takeFault_cancelRequested (s : State) (c : Cause) : (s.takeFault c).cancelRequested = s.cancelRequested := rfl

/-! ### takeCancel -/

@[simp] theorem State.takeCancel_params (s : State) : (s.takeCancel).params = s.params := rfl
@[simp] theorem State.takeCancel_reg (s : State) : (s.takeCancel).reg = s.reg := rfl
@[simp] theorem State.takeCancel_pc (s : State) : (s.takeCancel).pc = s.pc := rfl
@[simp] theorem State.takeCancel_fl (s : State) : (s.takeCancel).fl = s.fl := rfl
@[simp] theorem State.takeCancel_mem (s : State) : (s.takeCancel).mem = s.mem := rfl
@[simp] theorem State.takeCancel_status (s : State) : (s.takeCancel).status = .cancelled := rfl
@[simp] theorem State.takeCancel_started (s : State) : (s.takeCancel).started = s.started := rfl
@[simp] theorem State.takeCancel_out (s : State) : (s.takeCancel).out = s.out := rfl
@[simp] theorem State.takeCancel_cancelRequested (s : State) : (s.takeCancel).cancelRequested = s.cancelRequested := rfl

/-! ### requestCancel -/

@[simp] theorem requestCancel_params (s : State) : (requestCancel s).params = s.params := rfl
@[simp] theorem requestCancel_reg (s : State) : (requestCancel s).reg = s.reg := rfl
@[simp] theorem requestCancel_pc (s : State) : (requestCancel s).pc = s.pc := rfl
@[simp] theorem requestCancel_fl (s : State) : (requestCancel s).fl = s.fl := rfl
@[simp] theorem requestCancel_mem (s : State) : (requestCancel s).mem = s.mem := rfl
@[simp] theorem requestCancel_status (s : State) : (requestCancel s).status = s.status := rfl
@[simp] theorem requestCancel_started (s : State) : (requestCancel s).started = s.started := rfl
@[simp] theorem requestCancel_out (s : State) : (requestCancel s).out = s.out := rfl
@[simp] theorem requestCancel_cancelRequested (s : State) : (requestCancel s).cancelRequested = true := rfl

/-! ### reset -/

@[simp] theorem State.resetWith_params (p : Params) : (State.resetWith p).params = p := rfl
@[simp] theorem State.resetWith_reg (p : Params) : (State.resetWith p).reg = p.regInit.push p.spInit := rfl
@[simp] theorem State.resetWith_pc (p : Params) : (State.resetWith p).pc = 0 := rfl
@[simp] theorem State.resetWith_fl (p : Params) : (State.resetWith p).fl = .none := rfl
@[simp] theorem State.resetWith_mem (p : Params) : (State.resetWith p).mem = p.memInit := rfl
@[simp] theorem State.resetWith_status (p : Params) : (State.resetWith p).status = .running := rfl
@[simp] theorem State.resetWith_started (p : Params) : (State.resetWith p).started = false := rfl
@[simp] theorem State.resetWith_out (p : Params) : (State.resetWith p).out = [] := rfl
@[simp] theorem State.resetWith_cancelRequested (p : Params) : (State.resetWith p).cancelRequested = false := rfl

end Sys2Proof.Machine
end

