-- ==== Sys2Proof/Laws/Ops.lean ====
section
/-!
SUPPORT. What each shared operation can do, said once: when it answers a value, and when it stops.
-/

namespace Sys2Proof.Machine

/-! ### Sequencing -/

theorem bind_ok_iff {α β : Type} {x : Except Stop α} {f : α → Except Stop β} {r : β} :
    (x >>= f) = .ok r ↔ ∃ a, x = .ok a ∧ f a = .ok r := by
  cases x <;> simp [bind, Except.bind]

theorem bind_error_iff {α β : Type} {x : Except Stop α} {f : α → Except Stop β} {e : Stop} :
    (x >>= f) = .error e ↔ x = .error e ∨ ∃ a, x = .ok a ∧ f a = .error e := by
  cases x <;> simp [bind, Except.bind]

@[simp] theorem bind_ok {α β : Type} (a : α) (f : α → Except Stop β) : ((Except.ok a : Except Stop α) >>= f) = f a := rfl

@[simp] theorem bind_error {α β : Type} (e : Stop) (f : α → Except Stop β) :
    ((Except.error e : Except Stop α) >>= f) = .error e := rfl

@[simp] theorem pure_eq_ok {α : Type} (a : α) : (pure a : Except Stop α) = .ok a := rfl

@[simp] theorem raise_eq {α : Type} (c : Cause) : (raise c : Except Stop α) = .error (.raise c) := rfl

/-! ### Registers -/

theorem readReg_ok {i : Byte} (s : State) (h : i.toNat < 8) : readReg i s = .ok s.reg[i.toNat] := dif_pos h

theorem readReg_bad {i : Byte} (s : State) (h : 8 ≤ i.toNat) : readReg i s = .error (.raise (.badRegister i)) :=
  dif_neg (Nat.not_lt.2 h)

theorem readReg_ok_iff {i v : Byte} {s : State} : readReg i s = .ok v ↔ ∃ h : i.toNat < 8, s.reg[i.toNat] = v := by
  by_cases h : i.toNat < 8
  · simp [readReg_ok s h, h]
  · simp [readReg_bad s (Nat.not_lt.1 h), h]

theorem readReg_error {i : Byte} {s : State} {e : Stop} (h : readReg i s = .error e) :
    8 ≤ i.toNat ∧ e = .raise (.badRegister i) := by
  by_cases hi : i.toNat < 8
  · simp [readReg_ok s hi] at h
  · rw [readReg_bad s (Nat.not_lt.1 hi)] at h
    injection h with h
    exact ⟨Nat.not_lt.1 hi, h.symm⟩

theorem writeReg_ok {i : Byte} (v : Byte) (s : State) (h : i.toNat < 8) :
    writeReg i v s = .ok (s.putReg (s.reg.set i.toNat v h)) := dif_pos h

theorem writeReg_bad {i : Byte} (v : Byte) (s : State) (h : 8 ≤ i.toNat) :
    writeReg i v s = .error (.raise (.badRegister i)) := dif_neg (Nat.not_lt.2 h)

theorem writeReg_ok_iff {i v : Byte} {s t : State} :
    writeReg i v s = .ok t ↔ ∃ h : i.toNat < 8, t = s.putReg (s.reg.set i.toNat v h) := by
  by_cases h : i.toNat < 8
  · simp [writeReg_ok v s h, h, eq_comm]
  · simp [writeReg_bad v s (Nat.not_lt.1 h), h]

theorem writeReg_error {i v : Byte} {s : State} {e : Stop} (h : writeReg i v s = .error e) :
    8 ≤ i.toNat ∧ e = .raise (.badRegister i) := by
  by_cases hi : i.toNat < 8
  · simp [writeReg_ok v s hi] at h
  · rw [writeReg_bad v s (Nat.not_lt.1 hi)] at h
    injection h with h
    exact ⟨Nat.not_lt.1 hi, h.symm⟩

/-! ### Memory accesses -/

theorem checkAddr_ok_iff {k : AccessKind} {a : Nat} {s : State} {u : Unit} :
    checkAddr k a s = .ok u ↔ a < s.params.memSize := by
  unfold checkAddr
  split <;> simp_all

theorem checkAddr_error {k : AccessKind} {a : Nat} {s : State} {e : Stop} (h : checkAddr k a s = .error e) :
    s.params.memSize ≤ a ∧ e = .raise (.memOutOfBounds k a) := by
  unfold checkAddr at h
  split at h
  · cases h
  · rename_i ha
    injection h with h
    exact ⟨Nat.not_lt.1 ha, h.symm⟩

theorem readCell_ok_iff {a : Nat} {s : State} {v : Byte} : readCell a s = .ok v ↔ s.mem.read a = some v := by
  unfold readCell
  split <;> simp_all

theorem readCell_error {a : Nat} {s : State} {e : Stop} (h : readCell a s = .error e) :
    s.mem.read a = none ∧ e = .unwritten a := by
  unfold readCell at h
  split at h
  · cases h
  · rename_i ha
    injection h with h
    exact ⟨ha, h.symm⟩

theorem memRead_ok_iff {k : AccessKind} {a : Nat} {s : State} {v : Byte} :
    memRead k a s = .ok v ↔ a < s.params.memSize ∧ s.mem.read a = some v := by
  simp [memRead, bind_ok_iff, checkAddr_ok_iff, readCell_ok_iff]

theorem memRead_error {k : AccessKind} {a : Nat} {s : State} {e : Stop} (h : memRead k a s = .error e) :
    s.params.memSize ≤ a ∧ e = .raise (.memOutOfBounds k a) ∨
      a < s.params.memSize ∧ s.mem.read a = none ∧ e = .unwritten a := by
  rcases bind_error_iff.1 h with h | ⟨u, hu, h⟩
  · exact .inl (checkAddr_error h)
  · exact .inr ⟨checkAddr_ok_iff.1 hu, readCell_error h⟩

theorem memWrite_ok_iff {k : AccessKind} {a : Nat} {v : Byte} {s t : State} :
    memWrite k a v s = .ok t ↔ a < s.params.memSize ∧ t = s.putMem (s.mem.write a v) := by
  simp only [memWrite, bind_ok_iff, checkAddr_ok_iff, pure_eq_ok, Except.ok.injEq]
  exact ⟨fun ⟨_, h, e⟩ => ⟨h, e.symm⟩, fun ⟨h, e⟩ => ⟨(), h, e.symm⟩⟩

theorem memWrite_error {k : AccessKind} {a : Nat} {v : Byte} {s : State} {e : Stop} (h : memWrite k a v s = .error e) :
    s.params.memSize ≤ a ∧ e = .raise (.memOutOfBounds k a) := by
  rcases bind_error_iff.1 h with h | ⟨u, -, h⟩
  · exact checkAddr_error h
  · simp at h

/-! ### Commit -/

@[simp] theorem commit_ok (v : Variant) (s t : State) :
    commit v s (.ok t) = .next (t.setPc (selectNextPc (setsPc v.opcode) t.pc (pcInc v s))) := rfl

@[simp] theorem commit_error (v : Variant) (s : State) (e : Stop) : commit v s (.error e) = stopOutcome s e := rfl

@[simp] theorem stopOutcome_raise (s : State) (c : Cause) : stopOutcome s (.raise c) = .next (s.takeFault c) := rfl

@[simp] theorem stopOutcome_unwritten (s : State) (a : Nat) :
    stopOutcome s (.unwritten a) = .fault (.readUnwritten a) := rfl

@[simp] theorem selectNextPc_true (t inc : Nat) : selectNextPc true t inc = t := rfl

@[simp] theorem selectNextPc_false (t inc : Nat) : selectNextPc false t inc = inc := rfl

/-- An instruction that answers a next state has completed or has taken a fault. -/
theorem commit_next {v : Variant} {s t : State} {r : Except Stop State} (h : commit v s r = .next t) :
    (∃ u, r = .ok u ∧ t = u.setPc (selectNextPc (setsPc v.opcode) u.pc (pcInc v s))) ∨
      (∃ c, r = .error (.raise c) ∧ t = s.takeFault c) := by
  cases r with
  | ok u => exact .inl ⟨u, rfl, by simpa [eq_comm] using h⟩
  | error e =>
    cases e with
    | raise c => exact .inr ⟨c, rfl, by simpa [eq_comm] using h⟩
    | unwritten a => simp at h

/-- A commit never refuses, and its only fault is ReadUnwritten. -/
theorem commit_fault {v : Variant} {s : State} {r : Except Stop State} {f : Fault} (h : commit v s r = .fault f) :
    ∃ a, r = .error (.unwritten a) ∧ f = .readUnwritten a := by
  cases r with
  | ok u => simp at h
  | error e =>
    cases e with
    | raise c => simp at h
    | unwritten a => exact ⟨a, rfl, by simpa [eq_comm] using h⟩

theorem commit_not_refused {v : Variant} {s : State} {r : Except Stop State} {q : Refusal} :
    commit v s r ≠ .refused q := by
  cases r with
  | ok u => simp
  | error e => cases e <;> simp

/-! ### Operand forms -/

theorem readPair_ok_iff {a b va vb : Byte} {s : State} :
    readPair a b s = .ok (va, vb) ↔ readReg a s = .ok va ∧ readReg b s = .ok vb := by
  simp only [readPair, bind_ok_iff, pure_eq_ok, Except.ok.injEq, Prod.mk.injEq]
  constructor
  · rintro ⟨x, hx, y, hy, rfl, rfl⟩
    exact ⟨hx, hy⟩
  · rintro ⟨hx, hy⟩
    exact ⟨va, hx, vb, hy, rfl, rfl⟩

theorem readPair_error {a b : Byte} {s : State} {e : Stop} (h : readPair a b s = .error e) :
    ∃ i : Byte, 8 ≤ i.toNat ∧ e = .raise (.badRegister i) := by
  simp only [readPair, bind_error_iff, pure_eq_ok, reduceCtorEq, and_false, exists_false, or_false] at h
  rcases h with h | ⟨-, -, h⟩
  · exact ⟨a, readReg_error h⟩
  · exact ⟨b, readReg_error h⟩

theorem jumpTo_ok_iff {a : Byte} {s t : State} :
    jumpTo a s = .ok t ↔ ∃ v, readReg a s = .ok v ∧ t = s.setPc v.toNat := by
  simp only [jumpTo, branchTarget, bind_ok_iff, pure_eq_ok, Except.ok.injEq]
  constructor
  · rintro ⟨_, ⟨v, hv, rfl⟩, rfl⟩
    exact ⟨v, hv, rfl⟩
  · rintro ⟨v, hv, rfl⟩
    exact ⟨_, ⟨v, hv, rfl⟩, rfl⟩

theorem jumpTo_error {a : Byte} {s : State} {e : Stop} (h : jumpTo a s = .error e) :
    8 ≤ a.toNat ∧ e = .raise (.badRegister a) := by
  simp only [jumpTo, branchTarget, bind_error_iff, pure_eq_ok, reduceCtorEq, and_false, exists_false, or_false] at h
  exact readReg_error h

/-- An ALU operation that answers a state has written one register or the flags. -/
theorem aluOperation_ok {tag : AluTag} {a b : Byte} {s t : State} (h : aluOperation tag a b s = .ok t) :
    ∃ va vb, readReg a s = .ok va ∧ readReg b s = .ok vb ∧
      ((∃ v, alu tag va vb = .value v ∧ writeReg a v s = .ok t) ∨
        (∃ f, alu tag va vb = .flag f ∧ t = s.setFlag f)) := by
  obtain ⟨⟨va, vb⟩, hp, h⟩ := bind_ok_iff.1 h
  obtain ⟨ha, hb⟩ := readPair_ok_iff.1 hp
  refine ⟨va, vb, ha, hb, ?_⟩
  cases hr : alu tag va vb with
  | value v => exact .inl ⟨v, rfl, by simpa [hr] using h⟩
  | flag f => exact .inr ⟨f, rfl, by simpa [hr, eq_comm] using h⟩
  | divideByZero => simp [hr] at h

/-- An ALU operation stops on a bad register or on a zero divisor. -/
theorem aluOperation_error {tag : AluTag} {a b : Byte} {s : State} {e : Stop} (h : aluOperation tag a b s = .error e) :
    (∃ i : Byte, 8 ≤ i.toNat ∧ e = .raise (.badRegister i)) ∨
      (readReg b s = .ok 0 ∧ e = .raise (.divideByZero b)) := by
  rcases bind_error_iff.1 h with h | ⟨⟨va, vb⟩, hp, h⟩
  · exact .inl (readPair_error h)
  · have hb := (readPair_ok_iff.1 hp).2
    cases hr : alu tag va vb with
    | value v => exact .inl ⟨a, writeReg_error (by simpa [hr] using h)⟩
    | flag f => simp [hr] at h
    | divideByZero =>
      have hz : vb = 0 := by
        cases tag <;> simp only [alu, reduceCtorEq] at hr
        split at hr
        · assumption
        · cases hr
      exact .inr ⟨hz ▸ hb, by simpa [hr, eq_comm] using h⟩

/-! ### The stack -/

theorem spIndex_lt : Config.spIndex.toNat < 8 := by decide

@[simp] theorem readReg_sp (s : State) : readReg Config.spIndex s = .ok s.reg[7] := rfl

@[simp] theorem writeReg_sp (v : Byte) (s : State) :
    writeReg Config.spIndex v s = .ok (s.putReg (s.reg.set 7 v)) := rfl

/-- What reserving a slot does, as one equation. -/
theorem reserveSlot_eq (s : State) :
    reserveSlot s =
      if s.reg[7] = 0 then .error (.raise (.stackOverflow s.reg[7]))
      else if (s.reg[7] - 1).toNat < s.params.memSize then
        .ok (s.reg[7] - 1, s.putReg (s.reg.set 7 (s.reg[7] - 1)))
      else .error (.raise (.memOutOfBounds .stackWrite (s.reg[7] - 1).toNat)) := by
  unfold reserveSlot
  rw [readReg_sp, bind_ok]
  split
  · rfl
  · show (checkAddr .stackWrite (s.reg[7] - 1).toNat s >>= fun _ =>
      writeReg Config.spIndex (s.reg[7] - 1) s >>= fun t => pure (s.reg[7] - 1, t)) = _
    by_cases hm : (s.reg[7] - 1).toNat < s.params.memSize
    · rw [checkAddr_ok_iff (u := ()) |>.2 hm, if_pos hm]
      rfl
    · rw [if_neg hm, checkAddr, if_neg hm]
      rfl

/-- A slot is reserved exactly when SP is not 0 and the cell below it is in bounds. -/
theorem reserveSlot_ok_iff {s t : State} {slot : Byte} :
    reserveSlot s = .ok (slot, t) ↔
      s.reg[7] ≠ 0 ∧ slot = s.reg[7] - 1 ∧ slot.toNat < s.params.memSize ∧ t = s.putReg (s.reg.set 7 slot) := by
  rw [reserveSlot_eq]
  split
  · rename_i h
    exact ⟨fun e => (nomatch e), fun e => absurd h e.1⟩
  · rename_i h
    split
    · rename_i hm
      constructor
      · intro e
        injection e with e
        injection e with e1 e2
        subst e1 e2
        exact ⟨h, rfl, hm, rfl⟩
      · rintro ⟨-, rfl, -, rfl⟩
        rfl
    · rename_i hm
      refine ⟨fun e => (nomatch e), ?_⟩
      rintro ⟨-, rfl, h2, -⟩
      exact absurd h2 hm

/-- A slot is not reserved on an overflow or past the end of memory. -/
theorem reserveSlot_error {s : State} {e : Stop} (h : reserveSlot s = .error e) :
    (s.reg[7] = 0 ∧ e = .raise (.stackOverflow s.reg[7])) ∨
      (s.reg[7] ≠ 0 ∧ s.params.memSize ≤ (s.reg[7] - 1).toNat ∧
        e = .raise (.memOutOfBounds .stackWrite (s.reg[7] - 1).toNat)) := by
  rw [reserveSlot_eq] at h
  split at h
  · rename_i h0
    injection h with h
    exact .inl ⟨h0, h.symm⟩
  · rename_i h0
    split at h
    · cases h
    · rename_i hm
      injection h with h
      exact .inr ⟨h0, Nat.not_lt.1 hm, h.symm⟩

/-- The top of the stack is read exactly when SP is below SP_INIT and its cell holds a byte. -/
theorem readTop_ok_iff {s : State} {sp v : Byte} :
    readTop s = .ok (sp, v) ↔
      sp = s.reg[7] ∧ sp.toNat < s.params.spInit.toNat ∧ sp.toNat < s.params.memSize ∧ s.mem.read sp.toNat = some v := by
  by_cases h : s.params.spInit.toNat ≤ s.reg[7].toNat
  · simp only [readTop, readReg_sp, bind_ok, if_pos h, raise_eq, reduceCtorEq, false_iff, not_and]
    rintro rfl hlt
    omega
  · simp only [readTop, readReg_sp, bind_ok, if_neg h, bind_ok_iff, memRead_ok_iff, pure_eq_ok, Except.ok.injEq,
      Prod.mk.injEq]
    constructor
    · rintro ⟨x, ⟨hm, hr⟩, rfl, rfl⟩
      exact ⟨rfl, Nat.not_le.1 h, hm, hr⟩
    · rintro ⟨rfl, -, hm, hr⟩
      exact ⟨v, ⟨hm, hr⟩, rfl, rfl⟩

/-- Reading the top of the stack stops on an underflow, past the end of memory, or on an unwritten cell. -/
theorem readTop_error {s : State} {e : Stop} (h : readTop s = .error e) :
    (s.params.spInit.toNat ≤ s.reg[7].toNat ∧ e = .raise (.stackUnderflow s.reg[7])) ∨
      (s.reg[7].toNat < s.params.spInit.toNat ∧
        (s.params.memSize ≤ s.reg[7].toNat ∧ e = .raise (.memOutOfBounds .stackRead s.reg[7].toNat) ∨
          s.reg[7].toNat < s.params.memSize ∧ s.mem.read s.reg[7].toNat = none ∧ e = .unwritten s.reg[7].toNat)) := by
  by_cases h0 : s.params.spInit.toNat ≤ s.reg[7].toNat
  · left
    simp only [readTop, readReg_sp, bind_ok, if_pos h0, raise_eq, Except.error.injEq] at h
    exact ⟨h0, h.symm⟩
  · right
    simp only [readTop, readReg_sp, bind_ok, if_neg h0, bind_error_iff, pure_eq_ok, reduceCtorEq, and_false,
      exists_false, or_false] at h
    exact ⟨Nat.not_le.1 h0, memRead_error h⟩

/-! ### Every meaning is a commit -/

/-- The handler of an instruction: what its meaning commits. -/
def handler (i : Instr) (s : State) : Except Stop State :=
  match i with
  | .halt => .ok s.halt
  | .loadImmediate a imm => writeReg a (immediate imm) s
  | .printRegister a => do
    let v ← readReg a s
    pure (s.emit v)
  | .multiply a b => aluOperation .mul a b s
  | .add a b => aluOperation .add a b s
  | .modulo a b => aluOperation .mod a b s
  | .push a => do
    let (slot, t) ← reserveSlot s
    let v ← readReg a t
    memWrite .stackWrite slot.toNat v t
  | .pop a => do
    let (sp, v) ← readTop s
    let t ← writeReg a v s
    let top ← readReg Config.spIndex t
    if top = 255 then raise (.stackUnderflow sp)
    else writeReg Config.spIndex (top + 1) t
  | .call a => do
    let ret := s.pc + 2
    if 255 < ret then raise (.returnAddressOverflow ret)
    else
      let (slot, t) ← reserveSlot s
      let t ← memWrite .stackWrite slot.toNat (BitVec.ofNat 8 ret) t
      jumpTo a t
  | .ret => do
    let (sp, target) ← readTop s
    let t ← writeReg Config.spIndex (sp + 1) s
    pure (t.setPc target.toNat)
  | .compare a b => aluOperation .cmp a b s
  | .jump a => jumpTo a s
  | .jumpIfEqual a => jumpWhen (flagIsEqual s.fl) .jumpIfEqual a s
  | .jumpIfNotEqual a => jumpWhen (!flagIsEqual s.fl) .jumpIfNotEqual a s

/-- Every instruction's meaning is the commit of its handler. -/
theorem exec_eq_commit (i : Instr) (s : State) : exec i s = commit i.variant s (handler i s) := by
  cases i <;> rfl

/-- No instruction is refused. -/
theorem exec_not_refused (i : Instr) (s : State) (q : Refusal) : exec i s ≠ .refused q := by
  rw [exec_eq_commit]
  exact commit_not_refused

end Sys2Proof.Machine
end

