-- ==== Sys2Proof/Laws/Exec.lean ====
section
/-!
SUPPORT. What an instruction can do: what it leaves where it completes, and where it stops on an unwritten cell.
-/

namespace Sys2Proof.Machine

/-- An instruction that answers a next state has completed or has taken a fault. -/
theorem exec_next {i : Instr} {s t : State} (h : exec i s = .next t) :
    (∃ u, handler i s = .ok u ∧ t = u.setPc (selectNextPc (setsPc i.variant.opcode) u.pc (pcInc i.variant s))) ∨
      (∃ c, handler i s = .error (.raise c) ∧ t = s.takeFault c) := by
  rw [exec_eq_commit] at h
  exact commit_next h

/-- What an instruction that completes leaves as it was, before the multiplexer selects the PC. -/
theorem handler_completes {i : Instr} {s u : State} (h : handler i s = .ok u) :
    u.params = s.params ∧ u.started = s.started ∧ u.cancelRequested = s.cancelRequested ∧
    ((∀ a b, i ≠ .compare a b) → u.fl = s.fl) ∧
    ((∀ a, i ≠ .push a) → (∀ a, i ≠ .call a) → u.mem = s.mem) ∧
    (i ≠ .halt → u.status = s.status) ∧ (i = .halt → u.status = .halted) ∧
    (∀ r : Fin 8, (∀ x ∈ writesReg i, x.toNat ≠ r) → u.reg[r] = s.reg[r]) ∧
    ((∀ a, i ≠ .printRegister a) → u.out = s.out) ∧
    (∀ a, i = .printRegister a → ∃ v, readReg a s = .ok v ∧ u.out = s.out ++ [v]) := by
  have hset : ∀ (a : Byte) (ha : a.toNat < 8) (v : Byte) (reg : Vector Byte 8) (r : Fin 8), a.toNat ≠ r → (reg.set a.toNat v)[r] = reg[r] := by
    intro a ha v reg r hr
    simp only [Fin.getElem_fin]; rw [Vector.getElem_set_ne _ _ hr]
  have h7 : ∀ (v : Byte) (reg : Vector Byte 8) (r : Fin 8), (7 : Nat) ≠ r → (reg.set 7 v)[r] = reg[r] := by
    intro v reg r hr
    simp only [Fin.getElem_fin]; rw [Vector.getElem_set_ne _ _ hr]
  have halu : ∀ tag a b, aluOperation tag a b s = .ok u → 
      (tag ≠ .cmp ∧ ∃ (ha : a.toNat < 8) (v : Byte), u = s.putReg (s.reg.set a.toNat v)) ∨ (tag = .cmp ∧ ∃ f, u = s.setFlag f) := by
    intro tag a b h
    obtain ⟨va, vb, h1, h2, ⟨v, h3, h4⟩ | ⟨f, h3, h4⟩⟩ := aluOperation_ok h
    · left
      obtain ⟨ha, rfl⟩ := writeReg_ok_iff.1 h4
      refine ⟨?_, ha, v, rfl⟩
      rintro rfl; simp [alu] at h3
    · right
      refine ⟨?_, f, h4⟩
      cases tag <;> simp [alu] at h3 ⊢
      split at h3 <;> simp at h3
  have hjmp : ∀ a, jumpTo a s = .ok u → ∃ p, u = s.setPc p := by
    intro a h
    obtain ⟨v, _, rfl⟩ := jumpTo_ok_iff.1 h
    exact ⟨_, rfl⟩
  have hsp : Config.spIndex.toNat = 7 := by decide
  cases i with
  | halt => simp [handler] at h; subst h; simp
  | loadImmediate a imm =>
    obtain ⟨ha, rfl⟩ := writeReg_ok_iff.1 h
    simp [writesReg]; intro r hr; exact hset a ha _ _ r hr
  | printRegister a =>
    obtain ⟨v, hv, h⟩ := bind_ok_iff.1 h
    simp at h; subst h; simp [hv]
  | multiply a b =>
    rcases halu .mul a b h with ⟨_, ha, v, rfl⟩ | ⟨h, _⟩
    · simp [writesReg]; intro r hr; exact hset a ha _ _ r hr
    · simp at h
  | add a b =>
    rcases halu .add a b h with ⟨_, ha, v, rfl⟩ | ⟨h, _⟩
    · simp [writesReg]; intro r hr; exact hset a ha _ _ r hr
    · simp at h
  | modulo a b =>
    rcases halu .mod a b h with ⟨_, ha, v, rfl⟩ | ⟨h, _⟩
    · simp [writesReg]; intro r hr; exact hset a ha _ _ r hr
    · simp at h
  | compare a b =>
    rcases halu .cmp a b h with ⟨h, _⟩ | ⟨_, f, rfl⟩
    · simp at h
    · simp [writesReg]
  | push a =>
    obtain ⟨⟨slot, t⟩, h1, h⟩ := bind_ok_iff.1 h
    obtain ⟨v, h2, h⟩ := bind_ok_iff.1 h
    obtain ⟨_, _, _, rfl⟩ := reserveSlot_ok_iff.1 h1
    obtain ⟨_, rfl⟩ := memWrite_ok_iff.1 h
    simp [writesReg, hsp]; intro r hr; exact h7 _ _ r hr
  | call a =>
    simp only [handler] at h
    split at h
    · simp at h
    · obtain ⟨⟨slot, t⟩, h1, h⟩ := bind_ok_iff.1 h
      obtain ⟨t', h2, h⟩ := bind_ok_iff.1 h
      obtain ⟨_, _, _, rfl⟩ := reserveSlot_ok_iff.1 h1
      obtain ⟨_, rfl⟩ := memWrite_ok_iff.1 h2
      obtain ⟨v, _, rfl⟩ := jumpTo_ok_iff.1 h
      simp [writesReg, hsp]; intro r hr; exact h7 _ _ r hr
  | pop a =>
    obtain ⟨⟨sp, v⟩, h1, h⟩ := bind_ok_iff.1 h
    obtain ⟨t, h2, h⟩ := bind_ok_iff.1 h
    obtain ⟨ha, rfl⟩ := writeReg_ok_iff.1 h2
    simp only [readReg_sp, bind_ok] at h
    split at h
    · simp at h
    · simp at h; subst h
      simp [writesReg, hsp]; intro r hr hr'
      exact (h7 _ _ r hr').trans (hset a ha _ _ r hr)
  | ret =>
    obtain ⟨⟨sp, v⟩, h1, h⟩ := bind_ok_iff.1 h
    simp at h; subst h
    simp [writesReg, hsp]; intro r hr; exact h7 _ _ r hr
  | jump a => obtain ⟨p, rfl⟩ := hjmp _ h; simp
  | jumpIfEqual a =>
    simp only [handler, jumpWhen] at h
    split at h
    · obtain ⟨p, rfl⟩ := hjmp _ h; simp
    · simp at h; subst h; simp
  | jumpIfNotEqual a =>
    simp only [handler, jumpWhen] at h
    split at h
    · obtain ⟨p, rfl⟩ := hjmp _ h; simp
    · simp at h; subst h; simp

/-- An instruction stops with ReadUnwritten only at a cell in bounds that holds no byte. -/
theorem handler_unwritten {i : Instr} {s : State} {a : Nat} (h : handler i s = .error (.unwritten a)) :
    a < s.params.memSize ∧ s.mem.read a = none := by
  have halu : ∀ tag x y, aluOperation tag x y s ≠ .error (.unwritten a) := by
    intro tag x y h
    rcases aluOperation_error h with ⟨i, _, h⟩ | ⟨_, h⟩ <;> simp at h
  have hj : ∀ x s', jumpTo x s' ≠ .error (.unwritten a) := by
    intro x s' h; have := (jumpTo_error h).2; simp at this
  cases i with
  | halt => simp [handler] at h
  | loadImmediate x imm => have := (writeReg_error h).2; simp at this
  | printRegister x =>
    rcases bind_error_iff.1 h with h | ⟨v, _, h⟩
    · have := (readReg_error h).2; simp at this
    · simp at h
  | multiply x y => exact (halu .mul x y h).elim
  | add x y => exact (halu .add x y h).elim
  | modulo x y => exact (halu .mod x y h).elim
  | compare x y => exact (halu .cmp x y h).elim
  | push x =>
    rcases bind_error_iff.1 h with h | ⟨⟨slot, t⟩, _, h⟩
    · rcases reserveSlot_error h with ⟨_, h⟩ | ⟨_, _, h⟩ <;> simp at h
    · rcases bind_error_iff.1 h with h | ⟨v, _, h⟩
      · have := (readReg_error h).2; simp at this
      · have := (memWrite_error h).2; simp at this
  | call x =>
    simp only [handler] at h
    split at h
    · simp at h
    rcases bind_error_iff.1 h with h | ⟨⟨slot, t⟩, _, h⟩
    · rcases reserveSlot_error h with ⟨_, h⟩ | ⟨_, _, h⟩ <;> simp at h
    · rcases bind_error_iff.1 h with h | ⟨v, _, h⟩
      · have := (memWrite_error h).2; simp at this
      · exact (hj _ _ h).elim
  | pop x =>
    rcases bind_error_iff.1 h with h | ⟨⟨sp, v⟩, _, h⟩
    · rcases readTop_error h with ⟨_, h⟩ | ⟨_, ⟨_, h⟩ | ⟨h1, h2, h3⟩⟩
      · simp at h
      · simp at h
      · simp at h3; subst h3; exact ⟨h1, h2⟩
    · rcases bind_error_iff.1 h with h | ⟨t, _, h⟩
      · have := (writeReg_error h).2; simp at this
      · simp only [readReg_sp, bind_ok] at h
        split at h <;> simp at h
  | ret =>
    rcases bind_error_iff.1 h with h | ⟨⟨sp, v⟩, _, h⟩
    · rcases readTop_error h with ⟨_, h⟩ | ⟨_, ⟨_, h⟩ | ⟨h1, h2, h3⟩⟩
      · simp at h
      · simp at h
      · simp at h3; subst h3; exact ⟨h1, h2⟩
    · simp at h
  | jump x => exact (hj _ _ h).elim
  | jumpIfEqual x =>
    simp only [handler, jumpWhen] at h
    split at h
    · exact (hj _ _ h).elim
    · simp at h
  | jumpIfNotEqual x =>
    simp only [handler, jumpWhen] at h
    split at h
    · exact (hj _ _ h).elim
    · simp at h

end Sys2Proof.Machine
end

