-- ==== Sys2Proof/Laws/PerInstr.lean ====
section
/-!
SUPPORT. Statements about every instruction as syntax, one lemma per constructor.
-/

/-- The encoding of an instruction begins with its variant's opcode byte and is 1 + op[7:6] bytes long
(30_encoding.md R55, R57, R69). -/
def Sys2Proof.Laws.OpcodeByte.Statement (i : Sys2Proof.Instr) : Prop :=
  i.wellFormed = true ∧ (Sys2Proof.encode i).head? = some i.variant.opcode ∧
    (Sys2Proof.encode i).length = 1 + Sys2Proof.operandCount i.variant.opcode

namespace Sys2Proof.Laws.OpcodeByte

theorem halt : Statement .halt := ⟨rfl, rfl, by simp [encode, Instr.variant]⟩
theorem loadImmediate (a imm : Byte) : Statement (.loadImmediate a imm) := ⟨rfl, rfl, by simp [encode, Instr.variant]⟩
theorem printRegister (a : Byte) : Statement (.printRegister a) := ⟨rfl, rfl, by simp [encode, Instr.variant]⟩
theorem multiply (a b : Byte) : Statement (.multiply a b) := ⟨rfl, rfl, by simp [encode, Instr.variant]⟩
theorem add (a b : Byte) : Statement (.add a b) := ⟨rfl, rfl, by simp [encode, Instr.variant]⟩
theorem modulo (a b : Byte) : Statement (.modulo a b) := ⟨rfl, rfl, by simp [encode, Instr.variant]⟩
theorem push (a : Byte) : Statement (.push a) := ⟨rfl, rfl, by simp [encode, Instr.variant]⟩
theorem pop (a : Byte) : Statement (.pop a) := ⟨rfl, rfl, by simp [encode, Instr.variant]⟩
theorem call (a : Byte) : Statement (.call a) := ⟨rfl, rfl, by simp [encode, Instr.variant]⟩
theorem ret : Statement .ret := ⟨rfl, rfl, by simp [encode, Instr.variant]⟩
theorem compare (a b : Byte) : Statement (.compare a b) := ⟨rfl, rfl, by simp [encode, Instr.variant]⟩
theorem jump (a : Byte) : Statement (.jump a) := ⟨rfl, rfl, by simp [encode, Instr.variant]⟩
theorem jumpIfEqual (a : Byte) : Statement (.jumpIfEqual a) := ⟨rfl, rfl, by simp [encode, Instr.variant]⟩
theorem jumpIfNotEqual (a : Byte) : Statement (.jumpIfNotEqual a) := ⟨rfl, rfl, by simp [encode, Instr.variant]⟩

end Sys2Proof.Laws.OpcodeByte
end

