-- ==== Sys2Proof/Laws/Step.lean ====
section
/-!
SUPPORT. What a fetch and a step can do.
-/

namespace Sys2Proof.Machine

theorem checkOperand_ok_iff {n k : Nat} {s : State} {u : Unit} :
    checkOperand n k s = .ok u ↔ (k ≤ n → s.pc + k < s.params.memSize) := by
  unfold checkOperand
  split <;> simp_all [checkAddr_ok_iff]

theorem checkOperand_error {n k : Nat} {s : State} {e : Stop} (h : checkOperand n k s = .error e) :
    k ≤ n ∧ s.params.memSize ≤ s.pc + k ∧ e = .raise (.memOutOfBounds .operandFetch (s.pc + k)) := by
  unfold checkOperand at h
  split at h
  · rename_i hk
    exact ⟨hk, checkAddr_error h⟩
  · cases h

theorem checkOperands_ok_iff {n : Nat} {s : State} {u : Unit} :
    checkOperands n s = .ok u ↔
      (1 ≤ n → s.pc + 1 < s.params.memSize) ∧ (2 ≤ n → s.pc + 2 < s.params.memSize) := by
  simp [checkOperands, bind_ok_iff, checkOperand_ok_iff]

theorem checkOperands_error {n : Nat} {s : State} {e : Stop} (h : checkOperands n s = .error e) :
    ∃ k, (k = 1 ∨ k = 2) ∧ s.params.memSize ≤ s.pc + k ∧ e = .raise (.memOutOfBounds .operandFetch (s.pc + k)) := by
  rcases bind_error_iff.1 h with h | ⟨u, -, h⟩
  · exact ⟨1, .inl rfl, (checkOperand_error h).2⟩
  · exact ⟨2, .inr rfl, (checkOperand_error h).2⟩

theorem fetchOperand_ok_iff {n k : Nat} {s : State} {v : Byte} :
    fetchOperand n k s = .ok v ↔ (k ≤ n → s.mem.read (s.pc + k) = some v) ∧ (n < k → v = 0) := by
  unfold fetchOperand
  split
  · rename_i h
    simp only [readCell_ok_iff, h, Nat.not_lt.2 h, forall_const, false_imp_iff, and_true]
  · rename_i h
    simp only [Except.ok.injEq, h, false_imp_iff, Nat.not_le.1 h, forall_const, true_and]
    exact eq_comm

theorem fetchOperand_error {n k : Nat} {s : State} {e : Stop} (h : fetchOperand n k s = .error e) :
    k ≤ n ∧ s.mem.read (s.pc + k) = none ∧ e = .unwritten (s.pc + k) := by
  unfold fetchOperand at h
  split at h
  · rename_i hk
    exact ⟨hk, readCell_error h⟩
  · simp at h

/-- A fetch that answers an instruction has read its opcode and its declared operand bytes in bounds. -/
theorem fetch_ok {s : State} {i : Instr} (h : fetch s = .ok i) :
    ∃ v a b, i = assemble v a b ∧ s.mem.read s.pc = some v.opcode ∧
      s.pc + operandCount v.opcode < s.params.memSize ∧
      fetchOperand (operandCount v.opcode) 1 s = .ok a ∧ fetchOperand (operandCount v.opcode) 2 s = .ok b := by
  obtain ⟨op, hop, h⟩ := bind_ok_iff.1 h
  obtain ⟨hpc, hread⟩ := memRead_ok_iff.1 hop
  cases hd : dispatch op with
  | none => simp [hd] at h
  | some v =>
    have hv := opcode_of_dispatch hd
    subst hv
    simp only [hd] at h
    obtain ⟨u, hu, h⟩ := bind_ok_iff.1 h
    obtain ⟨a, ha, h⟩ := bind_ok_iff.1 h
    obtain ⟨b, hb, h⟩ := bind_ok_iff.1 h
    obtain ⟨h1, h2⟩ := checkOperands_ok_iff.1 hu
    refine ⟨v, a, b, by simpa [eq_comm] using h, hread, ?_, ha, hb⟩
    have := operandCount_opcode_le v
    rcases Nat.lt_trichotomy (operandCount v.opcode) 1 with h0 | h0 | h0 <;> omega

/-- Conversely, an opcode and its declared operand bytes in bounds are fetched as their instruction. -/
theorem fetch_of_reads {s : State} {v : Variant} {a b : Byte} (hop : s.mem.read s.pc = some v.opcode)
    (hlen : s.pc + operandCount v.opcode < s.params.memSize)
    (ha : fetchOperand (operandCount v.opcode) 1 s = .ok a) (hb : fetchOperand (operandCount v.opcode) 2 s = .ok b) :
    fetch s = .ok (assemble v a b) := by
  have hc : checkOperands (operandCount v.opcode) s = .ok () := checkOperands_ok_iff.2 ⟨by omega, by omega⟩
  unfold fetch
  rw [memRead_ok_iff.2 ⟨by omega, hop⟩]
  simp [hc, ha, hb]

/-- A fetch stops in one of the ways of 60_exceptions.md R149 items 1 to 4. -/
theorem fetch_error {s : State} {e : Stop} (h : fetch s = .error e) :
    (s.params.memSize ≤ s.pc ∧ e = .raise (.memOutOfBounds .fetch s.pc)) ∨
    (∃ op, s.mem.read s.pc = some op ∧ dispatch op = none ∧ e = .raise (.decodeError op)) ∨
    (∃ k, (k = 1 ∨ k = 2) ∧ s.params.memSize ≤ s.pc + k ∧
      e = .raise (.memOutOfBounds .operandFetch (s.pc + k))) ∨
    (∃ a, a < s.params.memSize ∧ s.mem.read a = none ∧ e = .unwritten a) := by
  rcases bind_error_iff.1 h with h | ⟨op, hop, h⟩
  · rcases memRead_error h with h | h
    · exact .inl h
    · exact .inr (.inr (.inr ⟨_, h⟩))
  · obtain ⟨hpc, hread⟩ := memRead_ok_iff.1 hop
    cases hd : dispatch op with
    | none => exact .inr (.inl ⟨op, hread, hd, by simpa [hd, eq_comm] using h⟩)
    | some v =>
      simp only [hd] at h
      rcases bind_error_iff.1 h with h | ⟨u, hu, h⟩
      · obtain ⟨k, hk⟩ := checkOperands_error h
        exact .inr (.inr (.inl ⟨k, hk⟩))
      · obtain ⟨h1, h2⟩ := checkOperands_ok_iff.1 hu
        rcases bind_error_iff.1 h with h | ⟨a, -, h⟩
        · obtain ⟨hk, hr⟩ := fetchOperand_error h
          exact .inr (.inr (.inr ⟨_, h1 hk, hr⟩))
        · rcases bind_error_iff.1 h with h | ⟨b, -, h⟩
          · obtain ⟨hk, hr⟩ := fetchOperand_error h
            exact .inr (.inr (.inr ⟨_, h2 hk, hr⟩))
          · simp at h

/-- Everything a step that answers a next state has done. -/
theorem step_next {s t : State} (h : step s = .next t) :
    s.status = .running ∧
      ((s.cancelRequested = true ∧ t = s.takeCancel) ∨
        (s.cancelRequested = false ∧
          ((∃ i, fetch s.markStarted = .ok i ∧ exec i s.markStarted = .next t) ∨
            (∃ c, fetch s.markStarted = .error (.raise c) ∧ t = s.markStarted.takeFault c)))) := by
  unfold step at h
  cases hs : s.status <;> simp only [hs, reduceCtorEq] at h
  refine ⟨rfl, ?_⟩
  cases hc : s.cancelRequested
  · right
    refine ⟨rfl, ?_⟩
    simp only [hc, Bool.false_eq_true, if_false] at h
    cases hf : fetch s.markStarted with
    | ok i => exact .inl ⟨i, rfl, by simpa [hf] using h⟩
    | error e =>
      cases e with
      | raise c => exact .inr ⟨c, rfl, by simpa [hf, eq_comm] using h⟩
      | unwritten a => simp [hf] at h
  · left
    exact ⟨rfl, by simpa [hc, eq_comm] using h⟩

/-- A step of a running core without a cancellation request. -/
theorem step_running {s : State} (hs : s.status = .running) (hc : s.cancelRequested = false) :
    step s = match fetch s.markStarted with
      | .ok i => exec i s.markStarted
      | .error e => stopOutcome s.markStarted e := by
  cases hf : fetch s.markStarted <;> simp [step, hs, hc, hf]

/-- A core that is not running has no step. -/
theorem step_not_running {s : State} (hs : s.status ≠ .running) : step s = .fault (.notRunning s.status) := by
  unfold step
  cases h : s.status <;> simp_all

/-- `placeBytes` stores into the memory and leaves the rest of the state. -/
theorem placeBytes_eq (a : Nat) (bytes : List Byte) (s : State) : ∃ m, placeBytes a bytes s = s.putMem m := by
  induction bytes generalizing a s with
  | nil => exact ⟨s.mem, rfl⟩
  | cons v rest ih =>
    obtain ⟨m, hm⟩ := ih (a + 1) (if a < s.params.memSize then s.putMem (s.mem.write a v) else s)
    refine ⟨m, ?_⟩
    rw [placeBytes, hm]
    split <;> rfl

/-- `placeBytes` keeps the canonical form of the memory. -/
theorem placeBytes_wf (a : Nat) (bytes : List Byte) (s : State) (h : s.mem.wf) : (placeBytes a bytes s).mem.wf := by
  induction bytes generalizing a s with
  | nil => exact h
  | cons v rest ih =>
    refine ih _ _ ?_
    split
    · exact Memory.wf_write _ _ h
    · exact h

end Sys2Proof.Machine
end

