-- ==== Sys2Proof/Tests/Slice0.lean ====
section
/-!
SUPPORT. Tests of the model. Expected results are the vectors of 95_test_vectors.md, named in each comment; the witness
theorems show states and operands that meet the hypotheses of the statements in Certificates/Slice0/Obligations.lean.
-/

namespace Sys2Proof.Tests

open Sys2Proof Sys2Proof.Machine

/-! ## Helpers -/

/-- A running core with the bytes `code` at `pc`, R0..R3 and SP as given, and `extra` cells. -/
def core (pc : Nat) (code : List Byte) (r0 r1 r2 r3 : Byte := 0) (sp : Byte := 244) (fl : Flag := .none)
    (extra : List Host.Cell := []) : State :=
  placeBytes pc code { State.reset with
    pc := pc, fl := fl, reg := #v[r0, r1, r2, r3, 0, 0, 0, sp],
    mem := extra.foldl (fun m c => m.write c.1 c.2) [] }

/-- What `f` sees in the next state, if there is one. -/
def seen {α : Type} (o : Host.Outcome State Fault Refusal) (f : State → α) : Option α :=
  match o with
  | .next t => some (f t)
  | .fault _ => none
  | .refused _ => none

/-- The fault of an outcome. -/
def stopped (o : Host.Outcome State Fault Refusal) : Option Fault :=
  match o with
  | .next _ => none
  | .fault f => some f
  | .refused _ => none

theorem next_of_seen {o : Host.Outcome State Fault Refusal} {p : State → Bool} (h : seen o p = some true) :
    ∃ t, o = .next t ∧ p t = true := by
  cases o with
  | next t => exact ⟨t, rfl, by simpa [seen] using h⟩
  | fault f => simp [seen] at h
  | refused q => simp [seen] at h

/-- Whether a status is a fault. -/
def isFaulted : Status → Bool
  | .faulted _ _ => true
  | .running => false
  | .halted => false
  | .cancelled => false

theorem notFaulted_of {t : State} (h : (!isFaulted t.status) = true) : t.notFaulted := by
  intro c p hs
  rw [hs] at h
  exact absurd h (by simp [isFaulted])

/-- A next state that is no fault, for a witness. -/
theorem completed_of_seen {o : Host.Outcome State Fault Refusal}
    (h : seen o (fun t => !isFaulted t.status) = some true) : ∃ t, o = .next t ∧ t.notFaulted := by
  obtain ⟨t, ht, hp⟩ := next_of_seen h
  exact ⟨t, ht, notFaulted_of hp⟩

/-! ## WellFormed: an ill-formed set of parameters for each check (00_scope.md R5). No instruction is ill formed. -/

theorem test_reference_legal : Config.reference.legal := by decide
theorem test_memSize_zero_refused : ¬ ({ Config.reference with memSize := 0 } : Params).memSizeLegal := by decide
theorem test_memSize_257_refused : ¬ ({ Config.reference with memSize := 257 } : Params).memSizeLegal := by decide
theorem test_spInit_zero_refused : ¬ ({ Config.reference with spInit := 0 } : Params).spInitLegal := by decide
theorem test_spInit_above_memory_refused : ¬ ({ Config.reference with memSize := 100 } : Params).spInitLegal := by decide
theorem test_memInit_unsorted_refused :
    ¬ ({ Config.reference with memInit := [(3, 1), (3, 2)] } : Params).memInitLegal := by decide
theorem test_memInit_outside_refused : ¬ ({ Config.reference with memInit := [(256, 1)] } : Params).memInitLegal := by
  decide

/-! ## Decode: a word of every constructor, bit by bit from 30_encoding.md R63 and R64 (vectors D1 to D14) -/

theorem test_decode_halt : decode [0b00000001] = .ok (.halt, []) := by decide
theorem test_decode_ldi : decode [0b10000010, 0b00000000, 0b00001000] = .ok (.loadImmediate 0 8, []) := by decide
theorem test_decode_prn : decode [0b01000111, 0b11001000] = .ok (.printRegister 200, []) := by decide
theorem test_decode_mul : decode [0b10100010, 0b00000011, 0b00000001] = .ok (.multiply 3 1, []) := by decide
theorem test_decode_add : decode [0b10100000, 0b00000011, 0b00000001] = .ok (.add 3 1, []) := by decide
theorem test_decode_mod : decode [0b10100100, 0b00000000, 0b00000010] = .ok (.modulo 0 2, []) := by decide
theorem test_decode_push : decode [0b01000101, 0b00000111, 0xFF] = .ok (.push 7, [0xFF]) := by decide
theorem test_decode_pop : decode [0b01000110, 0b00000010] = .ok (.pop 2, []) := by decide
theorem test_decode_call : decode [0b01010000, 0b00000001] = .ok (.call 1, []) := by decide
theorem test_decode_ret : decode [0b00010001, 0x47] = .ok (.ret, [0x47]) := by decide
theorem test_decode_cmp : decode [0b10100111, 0b00000000, 0b00000001] = .ok (.compare 0 1, []) := by decide
theorem test_decode_jmp : decode [0b01010100, 0b00000011] = .ok (.jump 3, []) := by decide
theorem test_decode_jeq : decode [0b01010101, 0b00000010] = .ok (.jumpIfEqual 2, []) := by decide
theorem test_decode_jne : decode [0b01010110, 0b00000011] = .ok (.jumpIfNotEqual 3, []) := by decide

/-- Vectors D15 to D22: unknown opcodes, rejected by name. -/
theorem test_decode_unknown : ∀ op ∈ ([0x00, 0xFF, 0xC2, 0x10, 0xA1, 0x44, 0x57, 0x02] : List Byte),
    decode [op, 0, 0] = .error (.unknownOpcode op) := by decide
theorem test_decode_truncated : decode [0xA0, 1] = .error (.missingOperand 2) ∧ decode [] = .error .noOpcode ∧
    decode [0x45] = .error (.missingOperand 1) := by decide
/-- The table's bits alone, the operand bytes zero. -/
theorem test_table_word : decodeTableWord 8 0xA0 = some (.add 0 0) ∧ decodeTableWord 8 0xFF = none := by decide

/-! ## One step of each instruction -/

/-- E1 and E2. -/
theorem test_halt : seen (step (core 5 [0x01])) (fun t => (t.status, t.pc, t.started)) = some (.halted, 6, true) := by
  decide
theorem test_halt_last : seen (step (core 255 [0x01])) (fun t => (t.status, t.pc)) = some (.halted, 256) := by decide
/-- L1 and L4. -/
theorem test_ldi : seen (step (core 0 [0x82, 0, 8])) (fun t => (t.reg[0], t.pc)) = some (8, 3) := by decide
theorem test_ldi_bad : seen (step (core 9 [0x82, 8, 1])) (·.status) = some (.faulted (.badRegister 8) 9) := by decide
/-- P-2 and P-4. -/
theorem test_prn_sp : seen (step (core 0 [0x47, 7])) (·.out) = some [244] := by decide
theorem test_prn_bad : seen (step (core 0 [0x47, 0xC8])) (fun t => (t.status, t.out)) =
    some (.faulted (.badRegister 200) 0, []) := by decide
/-- U3 and U4. -/
theorem test_mul : seen (step (core 0 [0xA2, 0, 1] (r0 := 255) (r1 := 255))) (·.reg[0]) = some 1 := by decide
theorem test_mul_same : seen (step (core 0 [0xA2, 3, 3] (r3 := 17))) (·.reg[3]) = some 33 := by decide
/-- A1 and A7. -/
theorem test_add_wraps : seen (step (core 0 [0xA0, 0, 1] (r0 := 250) (r1 := 10)))
    (fun t => (t.reg[0], t.reg[1], t.fl, t.pc)) = some (4, 10, .none, 3) := by decide
theorem test_add_bad_second : seen (step (core 0 [0xA0, 0, 9] (r0 := 1))) (fun t => (t.status, t.reg[0])) =
    some (.faulted (.badRegister 9) 0, 1) := by decide
/-- M1 and M5. -/
theorem test_mod : seen (step (core 0 [0xA4, 0, 2] (r0 := 72) (r2 := 5))) (·.reg[0]) = some 2 := by decide
theorem test_mod_zero : seen (step (core 18 [0xA4, 0, 2] (r0 := 72))) (fun t => (t.status, t.reg[0], t.pc)) =
    some (.faulted (.divideByZero 2) 18, 72, 18) := by decide
/-- S2 and S12. -/
theorem test_push_sp : seen (step (core 0 [0x45, 7])) (fun t => (t.reg[7], t.mem.read 243, t.mem.read 244)) =
    some (243, some 243, none) := by decide
theorem test_push_bad : seen (step (core 0 [0x45, 9])) (fun t => (t.status, t.reg[7], t.mem.read 243)) =
    some (.faulted (.badRegister 9) 0, 244, none) := by decide
/-- S9 and S10. -/
theorem test_pop_sp : seen (step (core 0 [0x46, 7] (sp := 243) (extra := [(243, 100)]))) (·.reg[7]) = some 101 := by
  decide
theorem test_pop_sp_255 : seen (step (core 0 [0x46, 7] (sp := 243) (extra := [(243, 255)])))
    (fun t => (t.status, t.reg[7])) = some (.faulted (.stackUnderflow 243) 0, 243) := by decide
/-- K2 and K7. -/
theorem test_call_sp : seen (step (core 6 [0x50, 7])) (fun t => (t.mem.read 243, t.reg[7], t.pc)) =
    some (some 8, 243, 243) := by decide
theorem test_call_254 : seen (step (core 254 [0x50, 1] (sp := 0))) (fun t => (t.status, t.pc)) =
    some (.faulted (.returnAddressOverflow 256) 254, 254) := by decide
/-- E7 and K5. -/
theorem test_ret_last : seen (step (core 255 [0x11] (sp := 243) (extra := [(243, 7)]))) (fun t => (t.pc, t.reg[7])) =
    some (7, 244) := by decide
theorem test_ret_empty : seen (step (core 0 [0x11])) (·.status) = some (.faulted (.stackUnderflow 244) 0) := by decide
/-- C5 and C7. -/
theorem test_cmp_unsigned : seen (step (core 0 [0xA7, 0, 1] (r0 := 0) (r1 := 255))) (fun t => (t.fl, t.pc)) =
    some (.lt, 3) := by decide
theorem test_cmp_bad : seen (step (core 0 [0xA7, 0, 8] (fl := .eq))) (fun t => (t.fl, t.status)) =
    some (.eq, .faulted (.badRegister 8) 0) := by decide
/-- B1, and E9 with MEM_SIZE = 100. -/
theorem test_jmp : seen (step (core 20 [0x54, 3] (r3 := 12))) (·.pc) = some 12 := by decide
theorem test_jmp_beyond_memory :
    let s := { core 20 [0x54, 1] (r1 := 150) with params := { Config.reference with memSize := 100, spInit := 100 } }
    seen (runFor 2 s) (·.status) = some (.faulted (.memOutOfBounds .fetch 150) 150) := by decide
/-- B3 and B9. -/
theorem test_jeq_taken : seen (step (core 12 [0x55, 2] (r2 := 15) (fl := .eq))) (·.pc) = some 15 := by decide
theorem test_jeq_not_taken_bad : seen (step (core 12 [0x55, 9] (fl := .lt))) (fun t => (t.pc, t.status)) =
    some (14, .running) := by decide
/-- B8 and B6. -/
theorem test_jne_none : seen (step (core 20 [0x56, 3] (r3 := 12))) (·.pc) = some 12 := by decide
theorem test_jne_eq : seen (step (core 20 [0x56, 3] (fl := .eq))) (·.pc) = some 22 := by decide

/-! ## Fetch and the host interface -/

/-- E3 to E6. -/
theorem test_fetch_faults :
    seen (step (core 256 [])) (·.status) = some (.faulted (.memOutOfBounds .fetch 256) 256) ∧
    seen (step (core 254 [0x82, 0])) (·.status) = some (.faulted (.memOutOfBounds .operandFetch 256) 254) ∧
    seen (step (core 255 [0x47])) (·.status) = some (.faulted (.memOutOfBounds .operandFetch 256) 255) ∧
    seen (step (core 255 [0xFF])) (·.status) = some (.faulted (.decodeError 0xFF) 255) := by decide
/-- S13: POP of an unwritten cell. -/
theorem test_pop_unwritten : stopped (step (core 0 [0x46, 1] (sp := 243))) = some (.readUnwritten 243) := by decide
/-- PUSH at MEM_SIZE = 100 with SP above it (60_exceptions.md R142, kind StackWrite). -/
theorem test_push_beyond_memory :
    let s := { core 0 [0x45, 0] (sp := 200) with params := { Config.reference with memSize := 100, spInit := 100 } }
    seen (step s) (·.status) = some (.faulted (.memOutOfBounds .stackWrite 199) 0) := by decide
/-- H1 to H4. -/
theorem test_load : (load 0 0x82 State.reset).map (·.mem) = some [(0, 0x82)] ∧ load 256 1 State.reset = none ∧
    load 3 300 State.reset = none ∧ load 0 1 State.reset.markStarted = none := by decide
/-- H5. -/
theorem test_cancel : seen (step (requestCancel State.reset)) (fun t => (t.status, t.pc, t.started)) =
    some (.cancelled, 0, false) := by decide
/-- From reset with nothing placed the first step reads an unwritten cell (assumption log 2 and 5). -/
theorem test_reset_empty : stopped (step State.reset) = some (.readUnwritten 0) := by decide
/-- An opcode-table row placed at reset is run by the very next step. -/
theorem test_withFetchWord : seen (step (State.reset.withFetchWord 24 0x050382)) (fun t => (t.reg[3], t.pc)) =
    some (5, 3) := by decide
/-- P-5 and G3: the text of an entry. -/
theorem test_entryText : entryText ['\n'] 0 = ['0', '\n'] ∧ entryText [] 255 = ['2', '5', '5'] := by decide

/-! ## Witnesses: the hypotheses of the statements can be met, one for each clause -/

theorem witness_EncodeInvertsDecode : decode [0x82, 3, 5, 9] = .ok (.loadImmediate 3 5, [9]) := by decide

theorem witness_UnknownOpcodeIsDecodeError :
    let s := core 255 [0x00]
    (0x00 : Byte) ∉ legalOpcodes ∧ (0xFF : Byte) ∉ legalOpcodes ∧ s.status = .running ∧ s.cancelRequested = false ∧
      s.pc < s.params.memSize ∧ s.mem.read s.pc = some 0x00 := by decide

theorem witness_StepRunsDecodedInstruction :
    let s := core 253 [0xA0, 1, 2]
    s.status = .running ∧ s.cancelRequested = false ∧ decode [0xA0, 1, 2] = .ok (.add 1 2, []) ∧
      (∀ (k : Nat) (h : k < [(0xA0 : Byte), 1, 2].length), s.pc + k < s.params.memSize ∧
        s.mem.read (s.pc + k) = some [(0xA0 : Byte), 1, 2][k]) := by decide

theorem witness_FetchBeyondMemoryFaults :
    let s := core 256 []
    s.status = .running ∧ s.cancelRequested = false ∧ s.params.memSize ≤ s.pc := by decide

theorem witness_OperandBeyondMemoryFaults_first :
    let s := core 255 [0x45]
    s.status = .running ∧ s.cancelRequested = false ∧ s.pc < s.params.memSize ∧ s.mem.read s.pc = some 0x45 ∧
      (0x45 : Byte) ∈ legalOpcodes ∧ 1 ≤ operandCount 0x45 ∧ s.params.memSize ≤ s.pc + 1 := by decide

theorem witness_OperandBeyondMemoryFaults_second :
    let s := core 254 [0x82]
    s.status = .running ∧ s.cancelRequested = false ∧ s.pc < s.params.memSize ∧ s.mem.read s.pc = some 0x82 ∧
      (0x82 : Byte) ∈ legalOpcodes ∧ 2 ≤ operandCount 0x82 ∧ s.pc + 1 < s.params.memSize ∧
      s.params.memSize ≤ s.pc + 2 := by decide

theorem witness_FetchOfUnwrittenCellStops_opcode :
    State.reset.status = .running ∧ State.reset.cancelRequested = false ∧
      State.reset.pc < State.reset.params.memSize ∧ State.reset.mem.read State.reset.pc = none := by decide

theorem witness_FetchOfUnwrittenCellStops_first :
    let s := core 254 [0x45]
    s.status = .running ∧ s.cancelRequested = false ∧ s.mem.read s.pc = some 0x45 ∧ (0x45 : Byte) ∈ legalOpcodes ∧
      s.pc + operandCount 0x45 < s.params.memSize ∧ 1 ≤ operandCount 0x45 ∧ s.mem.read (s.pc + 1) = none := by decide

theorem witness_FetchOfUnwrittenCellStops_second :
    let s := core 253 [0x82, 0]
    s.status = .running ∧ s.cancelRequested = false ∧ s.mem.read s.pc = some 0x82 ∧ (0x82 : Byte) ∈ legalOpcodes ∧
      s.pc + operandCount 0x82 < s.params.memSize ∧ 2 ≤ operandCount 0x82 ∧ s.mem.read (s.pc + 1) ≠ none ∧
      s.mem.read (s.pc + 2) = none := by decide

/-- The memory differs after the instruction's two bytes. -/
theorem witness_UndeclaredBytesAreNotRead :
    let s := core 7 [0x54, 3, 99]
    let m : Memory := [(7, 0x54), (8, 3)]
    fetch s = .ok (.jump 3) ∧ (∀ k, k < (encode (.jump 3)).length → m.read (s.pc + k) = s.mem.read (s.pc + k)) ∧
      m ≠ s.mem := by decide

theorem witness_TerminalStatusHasNoStep : ({ State.reset with status := .halted } : State).status ≠ .running := by decide

theorem witness_CancellationIsSampledBeforeTheFetch :
    (requestCancel State.reset).status = .running ∧ (requestCancel State.reset).cancelRequested = true := by decide

theorem witness_StepSetsStarted :
    (∃ t, step (core 0 [0x82, 0, 8]) = .next t ∧ (core 0 [0x82, 0, 8]).cancelRequested = false) ∧
    (∃ t, step (requestCancel State.reset) = .next t ∧ (requestCancel State.reset).cancelRequested = true) := by
  refine ⟨?_, ?_⟩
  · obtain ⟨t, ht, -⟩ := next_of_seen (o := step (core 0 [0x82, 0, 8])) (p := fun _ => true) (by decide)
    exact ⟨t, ht, by decide⟩
  · obtain ⟨t, ht, -⟩ := next_of_seen (o := step (requestCancel State.reset)) (p := fun _ => true) (by decide)
    exact ⟨t, ht, by decide⟩

/-- Legal parameters other than the reference ones. -/
def smallParams : Params := { Config.reference with memSize := 100, spInit := 100, memInit := [(0, 1), (99, 7)] }

theorem witness_ResetMeetsInvariant : smallParams.legal := by decide

theorem running_core : (core 0 [0x45, 7]).status = .running := by decide

/-- A running core with an instruction at its PC. -/
theorem inv_core : (core 0 [0x45, 7]).Inv := by
  refine ⟨by decide, ⟨by decide, by decide⟩, by unfold State.pcInv; decide, ?_, ?_⟩
  · intro c p h
    rw [running_core] at h
    cases h
  · intro h
    rw [running_core] at h
    rcases h with h | ⟨c, p, h⟩ <;> cases h

theorem witness_StepKeepsInvariant : ∃ t, (core 0 [0x45, 7]).Inv ∧ step (core 0 [0x45, 7]) = .next t := by
  obtain ⟨t, ht, -⟩ := next_of_seen (o := step (core 0 [0x45, 7])) (p := fun _ => true) (by decide)
  exact ⟨t, inv_core, ht⟩

theorem witness_StepKeepsMemoryForm :
    ∃ t, (core 0 [0x45, 7]).memoryInv ∧ step (core 0 [0x45, 7]) = .next t := by
  obtain ⟨t, ht, -⟩ := next_of_seen (o := step (core 0 [0x45, 7])) (p := fun _ => true) (by decide)
  exact ⟨t, inv_core.2.1, ht⟩

theorem witness_StepKeepsPcRange : ∃ t, (core 254 [0x45, 7]).pcInv ∧ step (core 254 [0x45, 7]) = .next t := by
  obtain ⟨t, ht, -⟩ := next_of_seen (o := step (core 254 [0x45, 7])) (p := fun _ => true) (by decide)
  exact ⟨t, by unfold State.pcInv; decide, ht⟩

theorem witness_HostKeepsInvariant :
    ∃ t, (core 0 [0x45, 7]).Inv ∧ load 255 255 (core 0 [0x45, 7]) = some t := ⟨_, inv_core, rfl⟩

/-- Two canonical memories built by different writes. -/
theorem witness_CanonicalMemoriesAreEqual :
    let m := (Memory.write [] 5 1).write 3 2
    let n := (Memory.write [] 3 2).write 5 1
    m.wf ∧ n.wf ∧ ∀ a, m.read a = n.read a :=
  ⟨by decide, by decide, fun _ => rfl⟩

theorem witness_FlagsAreWrittenAndReadAsStated :
    ((∀ a b, Instr.push 7 ≠ .compare a b) ∧ ∃ t, exec (.push 7) (core 0 [0x45, 7]) = .next t ∧ t.notFaulted) ∧
    ((∀ a, Instr.add 0 1 ≠ .jumpIfEqual a) ∧ (∀ a, Instr.add 0 1 ≠ .jumpIfNotEqual a) ∧
      (∀ a b, Instr.add 0 1 ≠ .compare a b)) ∧
    (∃ t, exec (.compare 0 1) (core 0 []) = .next t ∧ t.notFaulted) ∧
    ((core 0 []).status = .running ∧ ∃ t, exec (.compare 0 8) (core 0 []) = .next t ∧ ¬ t.notFaulted) ∧
    (Flag.none ≠ .eq ∧ Flag.gt ≠ .eq) := by
  refine ⟨⟨by simp, completed_of_seen (by decide)⟩, by simp, completed_of_seen (by decide), ⟨by decide, ?_⟩, by decide⟩
  obtain ⟨t, ht, hp⟩ := next_of_seen (o := exec (.compare 0 8) (core 0 []))
    (p := fun t => t.status == .faulted (.badRegister 8) 0) (by decide)
  exact ⟨t, ht, fun h => h _ _ (by simpa using hp)⟩

theorem witness_FlagsNeverBecomeNoneAgain :
    ∃ t, (core 0 [0xA7, 0, 1] (fl := .gt)).fl ≠ .none ∧ step (core 0 [0xA7, 0, 1] (fl := .gt)) = .next t := by
  obtain ⟨t, ht, -⟩ := next_of_seen (o := step (core 0 [0xA7, 0, 1] (fl := .gt))) (p := fun _ => true) (by decide)
  exact ⟨t, by decide, ht⟩

theorem witness_OutputGrowsByOneEntryPerPrint :
    (core 0 []).status = .running ∧ (∃ t, exec (.printRegister 7) (core 0 []) = .next t ∧ t.notFaulted) ∧
    (∃ t, exec (.jump 1) (core 0 []) = .next t ∧ ∀ a, Instr.jump 1 ≠ .printRegister a) := by
  refine ⟨by decide, completed_of_seen (by decide), ?_⟩
  obtain ⟨t, ht, -⟩ := next_of_seen (o := exec (.jump 1) (core 0 [])) (p := fun _ => true) (by decide)
  exact ⟨t, ht, by simp⟩

theorem witness_FaultsArePreciseAndTerminal :
    ∃ t, (core 18 [0xA4, 0, 2]).status = .running ∧ step (core 18 [0xA4, 0, 2]) = .next t ∧
      t.status = .faulted (.divideByZero 2) 18 := by
  obtain ⟨t, ht, hp⟩ := next_of_seen (o := step (core 18 [0xA4, 0, 2]))
    (p := fun t => t.status == .faulted (.divideByZero 2) 18) (by decide)
  exact ⟨t, by decide, ht, by simpa using hp⟩

theorem witness_GenericAdvanceOfNineOpcodes :
    setsPc (Instr.add 0 1).variant.opcode = false ∧ ∃ t, exec (.add 0 1) (core 0 []) = .next t ∧ t.notFaulted :=
  ⟨by decide, completed_of_seen (by decide)⟩

theorem witness_ExplicitTargetsAreBytes :
    setsPc (Instr.jump 1).variant.opcode = true ∧ ∃ t, exec (.jump 1) (core 0 []) = .next t ∧ t.notFaulted :=
  ⟨by decide, completed_of_seen (by decide)⟩

theorem witness_OnlyPushAndCallWriteMemory :
    (∀ a, Instr.pop 1 ≠ .push a) ∧ (∀ a, Instr.pop 1 ≠ .call a) ∧
      ∃ t, exec (.pop 1) (core 0 [] (sp := 243) (extra := [(243, 9)])) = .next t ∧ t.notFaulted :=
  ⟨by simp, by simp, completed_of_seen (by decide)⟩

theorem witness_StepKeepsParametersAndRequest : ∃ t, step (core 0 [0x01]) = .next t ∧ t.notFaulted :=
  completed_of_seen (by decide)

theorem witness_RegistersWrittenAsListed :
    (∃ t, exec (.pop 1) (core 0 [] (sp := 243) (extra := [(243, 9)])) = .next t ∧ t.notFaulted) ∧
      ∀ x ∈ writesReg (.pop 1), x.toNat ≠ (2 : Fin 8) :=
  ⟨completed_of_seen (by decide), by decide⟩

theorem witness_RegistersReadAsListed :
    (∀ x ∈ readsReg .gt (.jumpIfEqual 3), x.toNat ≠ (3 : Fin 8)) ∧
      ∀ x ∈ writesReg (.jumpIfEqual 3), x.toNat ≠ (3 : Fin 8) := by decide

theorem witness_StatusChangesAsListed :
    (core 0 [0x01]).status = .running ∧ (∃ t, exec .halt (core 0 [0x01]) = .next t ∧ t.notFaulted) ∧
      (∃ t, step (core 0 [0x01]) = .next t ∧ t.notFaulted) :=
  ⟨by decide, completed_of_seen (by decide), completed_of_seen (by decide)⟩

theorem witness_FrameOfRegisterInstructions :
    (Instr.add 0 1).variant ∉ [.push, .pop, .call, .ret] ∧
      (∃ t, exec (.add 0 1) (core 0 []) = .next t ∧ t.notFaulted) ∧
      ∀ x ∈ writesReg (.add 0 1), x.toNat ≠ (1 : Fin 8) :=
  ⟨by decide, completed_of_seen (by decide), by decide⟩

/-- A slot at the lowest address, and an address that is not the slot. -/
theorem witness_FrameOfStoringInstructions :
    (Instr.push 7).variant ∈ [.push, .call] ∧ (∃ t, exec (.push 7) (core 9 [] (sp := 1)) = .next t ∧ t.notFaulted) ∧
      ∀ slot u, reserveSlot (core 9 [] (sp := 1)) = .ok (slot, u) → 1 ≠ slot.toNat := by
  refine ⟨by decide, completed_of_seen (by decide), ?_⟩
  intro slot u h
  have e : reserveSlot (core 9 [] (sp := 1)) = .ok (0, (core 9 [] (sp := 0))) := by decide
  rw [e] at h
  injection h with h
  injection h with h
  subst h
  decide

theorem witness_FrameOfPoppingInstructions :
    (Instr.pop 1).variant ∈ [.pop, .ret] ∧
      (∃ t, exec (.pop 1) (core 0 [] (sp := 243) (extra := [(243, 9)])) = .next t ∧ t.notFaulted) ∧
      (2 : Fin 8) ≠ 7 ∧ ∀ a, Instr.pop 1 = .pop a → a.toNat ≠ (2 : Fin 8) := by
  refine ⟨by decide, completed_of_seen (by decide), by decide, ?_⟩
  intro a h
  injection h with h
  subst h
  decide

/-- The clauses of the statements on LOAD-IMMEDIATE, PRINT-REGISTER, JUMP: the last register and the first index that is
none. -/
theorem witness_RegisterOperand : (7 : Byte).toNat < 8 ∧ 8 ≤ (8 : Byte).toNat ∧ 8 ≤ (255 : Byte).toNat := by decide

/-- The clauses of MultiplyResult, AddResult and CompareResult: both registers, the first bad, the second bad. -/
theorem witness_RegisterPair :
    ((7 : Byte).toNat < 8 ∧ (0 : Byte).toNat < 8) ∧ 8 ≤ (8 : Byte).toNat ∧ ((7 : Byte).toNat < 8 ∧ 8 ≤ (8 : Byte).toNat) := by
  decide

theorem witness_ModuloResult :
    (core 0 [] (r1 := 1)).reg[(1 : Byte).toNat] ≠ 0 ∧ (core 0 []).reg[(1 : Byte).toNat] = 0 := by decide

/-- PushResult: the lowest slot, an overflow, a slot past the end of memory, a bad register. -/
theorem witness_PushResult :
    (let s := core 0 [] (sp := 1); 0 < s.reg[7].toNat ∧ s.reg[7].toNat - 1 < s.params.memSize) ∧
    (core 0 [] (sp := 0)).reg[7].toNat = 0 ∧
    (let s := { core 0 [] (sp := 101) with params := smallParams }
     0 < s.reg[7].toNat ∧ s.params.memSize ≤ s.reg[7].toNat - 1) ∧
    (let s := core 0 [] (sp := 255); 0 < s.reg[7].toNat ∧ s.reg[7].toNat - 1 < s.params.memSize ∧ 8 ≤ (8 : Byte).toNat) := by
  decide

/-- PopResult and ReturnResult: SP at SP_INIT, an unwritten cell below it, the topmost cell, and the byte 255. -/
theorem witness_PopAndReturnResult :
    (core 0 []).params.spInitLegal ∧
    (core 0 []).params.spInit.toNat ≤ (core 0 []).reg[7].toNat ∧
    (let s := core 0 [] (sp := 243); s.reg[7].toNat < s.params.spInit.toNat ∧ s.mem.read s.reg[7].toNat = none) ∧
    (let s := core 0 [] (sp := 243) (extra := [(243, 254)])
     s.reg[7].toNat < s.params.spInit.toNat ∧ s.mem.read s.reg[7].toNat = some 254 ∧ (6 : Byte).toNat < 8 ∧
       (6 : Byte) ≠ 7 ∧ (254 : Byte) ≠ 255 ∧ 8 ≤ (8 : Byte).toNat) ∧
    (let s := core 0 [] (sp := 0) (extra := [(0, 255)])
     s.reg[7].toNat < s.params.spInit.toNat ∧ s.mem.read s.reg[7].toNat = some 255) := by decide

/-- CallResult: the last PC a CALL may have, the first it may not, an overflow, a slot past the end, a bad register. -/
theorem witness_CallResult :
    (let s := core 253 [] (sp := 1)
     s.pc + 2 ≤ 255 ∧ 0 < s.reg[7].toNat ∧ s.reg[7].toNat - 1 < s.params.memSize ∧ (7 : Byte).toNat < 8 ∧
       8 ≤ (8 : Byte).toNat) ∧
    255 < (core 254 []).pc + 2 ∧
    (let s := core 253 [] (sp := 0); s.pc + 2 ≤ 255 ∧ s.reg[7].toNat = 0) ∧
    (let s := { core 6 [] (sp := 101) with params := smallParams }
     s.pc + 2 ≤ 255 ∧ 0 < s.reg[7].toNat ∧ s.params.memSize ≤ s.reg[7].toNat - 1) := by decide

/-- JumpIfEqualResult and JumpIfNotEqualResult: FL is EQ, and FL is not. -/
theorem witness_ConditionalJumpResult : (core 0 [] (fl := .eq)).fl = .eq ∧ (core 0 []).fl ≠ .eq := by decide

/-- PushThenPopRestores, CallThenReturnRestores and StoredBytesAreFetchedAtOnce: an empty stack and the lowest slot; R7
itself and two other registers. -/
theorem witness_StackLaws :
    (∀ sp ∈ ([1, 244] : List Byte), let s := core 6 [] (sp := sp)
      0 < s.reg[7].toNat ∧ s.reg[7].toNat ≤ s.params.spInit.toNat ∧ s.reg[7].toNat - 1 < s.params.memSize ∧
        s.pc + 2 ≤ 255) ∧ (7 : Byte).toNat < 8 ∧ ((3 : Byte) ≠ 7 ∧ (5 : Byte) ≠ 7 ∧ (3 : Byte).toNat < 8 ∧ (5 : Byte).toNat < 8) := by
  decide

/-- A state after a callee that left SP and the stored byte alone. -/
theorem witness_CallThenReturnRestores :
    ∃ t, exec (.call 1) (core 6 [] (r1 := 15)) = .next t ∧
      ∃ w : State, w.params = (core 6 []).params ∧ w.reg[7] = t.reg[7] ∧
        w.mem.read ((core 6 []).reg[7].toNat - 1) = t.mem.read ((core 6 []).reg[7].toNat - 1) := by
  obtain ⟨t, ht, hp⟩ := next_of_seen (o := exec (.call 1) (core 6 [] (r1 := 15)))
    (p := fun t => t.params == (core 6 []).params) (by decide)
  exact ⟨t, ht, t, by simpa using hp, rfl, rfl⟩

theorem witness_ConditionalJumpsAreComplementary :
    (0 : Byte).toNat < 8 ∧ (1 : Byte).toNat < 8 ∧ (7 : Byte).toNat < 8 := by decide

theorem witness_LoadIsAdmittedExactly :
    State.reset.status = .running ∧ State.reset.started = false ∧ 255 < State.reset.params.memSize := by decide

/-- An image that fits and, on a machine of 100 cells, one that does not. -/
theorem witness_ImageIsLoadedFromZero :
    (∀ v ∈ ([0x82, 255] : List Nat), v ≤ 255) ∧ ([0x82, 255] : List Nat).length ≤ State.reset.params.memSize ∧
    (∀ v ∈ List.replicate 101 255, v ≤ 255) ∧ (State.resetWith smallParams).params.memSize < 101 := by decide

/-- A running core, and a halted one. -/
theorem witness_RunIsRepeatedStep :
    State.reset.status = .running ∧ (State.reset.halt).status ≠ .running := by decide

end Sys2Proof.Tests
end

namespace Sys2Proof.Machine

/-! ## The machine's parameters and the host's request -/

/-- No instruction writes the parameters or the cancellation request, whether it completes or takes a fault
(00_scope.md R5, 60_exceptions.md R141, R154). -/
theorem exec_keeps_params_and_request {i : Instr} {s t : State} (h : exec i s = .next t) :
    t.params = s.params ∧ t.cancelRequested = s.cancelRequested := by
  rcases exec_next h with ⟨u, hu, rfl⟩ | ⟨c, -, rfl⟩
  · obtain ⟨hparams, -, hrequest, -⟩ := handler_completes hu
    exact ⟨hparams, hrequest⟩
  · exact ⟨s.takeFault_params c, s.takeFault_cancelRequested c⟩

/-- Settles O29: a step samples the cancellation, runs one instruction or takes a fault of the fetch, and none of the
three writes the parameters or the request. -/
theorem stepKeepsParametersAndRequest : Obligations.StepKeepsParametersAndRequest := by
  intro s t h
  obtain ⟨-, ⟨-, rfl⟩ | ⟨-, ⟨i, -, hexec⟩ | ⟨c, -, rfl⟩⟩⟩ := step_next h
  · exact ⟨s.takeCancel_params, s.takeCancel_cancelRequested⟩
  · simpa using exec_keeps_params_and_request hexec
  · exact ⟨s.markStarted.takeFault_params c, s.markStarted.takeFault_cancelRequested c⟩

end Sys2Proof.Machine

namespace Sys2Proof.Machine

/-! ## The status an instruction leaves -/

/-- An instruction that completes from Running leaves Halted if it is HALT and Running otherwise (10_state.md R27). -/
theorem handler_status {i : Instr} {s u : State} (hs : s.status = .running) (h : handler i s = .ok u) :
    u.status = if i = .halt then .halted else .running := by
  obtain ⟨-, -, -, -, -, hkeeps, hhalts, -⟩ := handler_completes h
  split
  · exact hhalts ‹_›
  · rw [hkeeps ‹_›, hs]

/-- A state that has not faulted is one an instruction has completed in. -/
theorem exec_completed {i : Instr} {s t : State} (h : exec i s = .next t) (hn : t.notFaulted) :
    ∃ u, handler i s = .ok u ∧ t = u.setPc (selectNextPc (setsPc i.variant.opcode) u.pc (pcInc i.variant s)) := by
  rcases exec_next h with hok | ⟨c, -, rfl⟩
  · exact hok
  · exact absurd rfl (hn c s.pc)

/-- Settles O32: HALT is the only handler that writes the status, a fault makes it Faulted, and a step cancels exactly
when it samples the request. -/
theorem statusChangesAsListed : Obligations.StatusChangesAsListed := by
  have hexec : ∀ (i : Instr) (s t : State), s.status = .running → exec i s = .next t →
      (t.status = .halted ↔ i = .halt) ∧ t.status ≠ .cancelled ∧
        (t.notFaulted → i ≠ .halt → t.status = .running) := by
    intro i s t hs h
    rcases exec_next h with ⟨u, hu, rfl⟩ | ⟨c, hc, rfl⟩
    · have hstatus := handler_status hs hu
      by_cases hi : i = .halt <;> simp [hi, hstatus]
    · have hi : i ≠ .halt := by
        rintro rfl
        cases hc
      exact ⟨by simp [hi], by simp, fun hn => absurd rfl (hn c s.pc)⟩
  refine ⟨hexec, fun s t h => ?_⟩
  obtain ⟨hs, ⟨hreq, rfl⟩ | ⟨hreq, ⟨i, -, hi⟩ | ⟨c, -, rfl⟩⟩⟩ := step_next h
  · exact ⟨hs, by simp [hreq]⟩
  · exact ⟨hs, by simp [hreq, (hexec i s.markStarted t hs hi).2.1]⟩
  · exact ⟨hs, by simp [hreq]⟩

/-! ## Where the program counter can be (10_state.md R25, 40_execution_loop.md R81) -/

/-- A control transfer that completes leaves a byte as its target, or the generic advance where a conditional jump is
not taken. -/
theorem handler_target {i : Instr} {s u : State} (h : handler i s = .ok u) (hset : setsPc i.variant.opcode = true) :
    u.pc ≤ 255 ∨ u.pc = pcInc i.variant s := by
  have hjump : ∀ a (t : State), jumpTo a t = .ok u → u.pc ≤ 255 := by
    intro a t h
    obtain ⟨v, -, rfl⟩ := jumpTo_ok_iff.1 h
    exact Nat.le_of_lt_succ v.isLt
  have hwhen : ∀ taken v a, jumpWhen taken v a s = .ok u → u.pc ≤ 255 ∨ u.pc = pcInc v s := by
    intro taken v a h
    cases taken with
    | true => exact .inl (hjump a s h)
    | false =>
      cases h
      exact .inr rfl
  cases i with
  | call a =>
    simp only [handler] at h
    split at h
    · cases h
    · obtain ⟨⟨slot, t⟩, -, h⟩ := bind_ok_iff.1 h
      obtain ⟨t', -, h⟩ := bind_ok_iff.1 h
      exact .inl (hjump a t' h)
  | ret =>
    obtain ⟨⟨sp, target⟩, -, h⟩ := bind_ok_iff.1 h
    cases h
    exact .inl (Nat.le_of_lt_succ target.isLt)
  | jump a => exact .inl (hjump a s h)
  | jumpIfEqual a => exact hwhen _ _ a h
  | jumpIfNotEqual a => exact hwhen _ _ a h
  | _ => simp [Instr.variant] at hset

/-- An instruction leaves PC at itself, at a byte, or at the generic advance. -/
theorem exec_pc {i : Instr} {s t : State} (h : exec i s = .next t) :
    t.pc = s.pc ∨ t.pc ≤ 255 ∨ t.pc = s.pc + 1 + operandCount i.variant.opcode := by
  rcases exec_next h with ⟨u, hu, rfl⟩ | ⟨c, -, rfl⟩
  · cases hset : setsPc i.variant.opcode with
    | true => exact .inr (handler_target hu hset)
    | false => exact .inr (.inr rfl)
  · exact .inl rfl

/-- The whole of a fetched instruction is in bounds. -/
theorem fetch_in_bounds {s : State} {i : Instr} (h : fetch s = .ok i) :
    s.pc + operandCount i.variant.opcode < s.params.memSize := by
  obtain ⟨v, a, b, rfl, -, hlen, -⟩ := fetch_ok h
  simpa using hlen

/-- Settles O19: the generic advance of a fetched instruction ends at MEM_SIZE at most, and every other new PC is a
byte. -/
theorem stepKeepsPcRange : Obligations.StepKeepsPcRange := by
  intro s t hpc h
  have hparams := (stepKeepsParametersAndRequest s t h).1
  unfold State.pcInv at hpc ⊢
  obtain ⟨-, ⟨-, rfl⟩ | ⟨-, ⟨i, hfetch, hexec⟩ | ⟨c, -, rfl⟩⟩⟩ := step_next h
  · exact hpc
  · have hlen := fetch_in_bounds hfetch
    have hnew := exec_pc hexec
    simp only [State.markStarted_pc, State.markStarted_params] at hlen hnew
    rw [hparams]
    omega
  · exact hpc

/-! ## The memory an instruction leaves -/

/-- An instruction that completes leaves the memory, or writes one byte of it in bounds (20_memory.md R42). -/
theorem handler_mem {i : Instr} {s u : State} (h : handler i s = .ok u) :
    u.mem = s.mem ∨ ∃ a v, a < s.params.memSize ∧ u.mem = s.mem.write a v := by
  obtain ⟨-, -, -, -, hmem, -⟩ := handler_completes h
  cases i with
  | push a =>
    obtain ⟨⟨slot, t⟩, hslot, h⟩ := bind_ok_iff.1 h
    obtain ⟨v, -, h⟩ := bind_ok_iff.1 h
    obtain ⟨-, -, -, rfl⟩ := reserveSlot_ok_iff.1 hslot
    obtain ⟨hlt, rfl⟩ := memWrite_ok_iff.1 h
    exact .inr ⟨_, _, hlt, rfl⟩
  | call a =>
    simp only [handler] at h
    split at h
    · cases h
    · obtain ⟨⟨slot, t⟩, hslot, h⟩ := bind_ok_iff.1 h
      obtain ⟨t', hwrite, h⟩ := bind_ok_iff.1 h
      obtain ⟨-, -, -, rfl⟩ := reserveSlot_ok_iff.1 hslot
      obtain ⟨hlt, rfl⟩ := memWrite_ok_iff.1 hwrite
      obtain ⟨v, -, rfl⟩ := jumpTo_ok_iff.1 h
      exact .inr ⟨_, _, hlt, rfl⟩
  | _ => exact .inl (hmem (by simp) (by simp))

/-- The memory invariant speaks of the memory and MEM_SIZE only. -/
theorem memoryInv_congr {s t : State} (hmem : t.mem = s.mem) (hparams : t.params = s.params) (h : s.memoryInv) :
    t.memoryInv := by
  unfold State.memoryInv
  rw [hmem, hparams]
  exact h

/-- A write in bounds keeps the memory invariant. -/
theorem memoryInv_write {s t : State} {a : Nat} {v : Byte} (ha : a < s.params.memSize)
    (hmem : t.mem = s.mem.write a v) (hparams : t.params = s.params) (h : s.memoryInv) : t.memoryInv := by
  obtain ⟨hwf, hbound⟩ := h
  unfold State.memoryInv
  rw [hmem, hparams]
  refine ⟨Memory.wf_write a v hwf, fun c hc => ?_⟩
  rcases Memory.mem_write hc with rfl | hc
  · exact ha
  · exact hbound c hc

/-- Every instruction keeps the memory invariant. -/
theorem exec_keeps_memoryInv {i : Instr} {s t : State} (hinv : s.memoryInv) (h : exec i s = .next t) : t.memoryInv := by
  have hparams := (exec_keeps_params_and_request h).1
  rcases exec_next h with ⟨u, hu, rfl⟩ | ⟨c, -, rfl⟩
  · rcases handler_mem hu with hmem | ⟨a, v, ha, hmem⟩
    · exact memoryInv_congr hmem hparams hinv
    · exact memoryInv_write ha hmem hparams hinv
  · exact hinv

/-- Every step keeps the memory invariant, whatever else holds of the state. -/
theorem step_keeps_memoryInv {s t : State} (hinv : s.memoryInv) (h : step s = .next t) : t.memoryInv := by
  obtain ⟨-, ⟨-, rfl⟩ | ⟨-, ⟨i, -, hexec⟩ | ⟨c, -, rfl⟩⟩⟩ := step_next h
  · exact hinv
  · exact exec_keeps_memoryInv (s := s.markStarted) hinv hexec
  · exact hinv

/-! ## A fault is explained by the state it is raised in (60_exceptions.md R142) -/

/-- Taking a fault leaves everything a cause is explained by. -/
theorem explainedBy_takeFault {c d : Cause} {s : State} (h : c.explainedBy s) : c.explainedBy (s.takeFault d) := by
  cases c with
  | memOutOfBounds kind addr => cases kind <;> exact h
  | _ => exact h

/-- A read of a register stops on its index only, whatever state it is read in. -/
theorem readReg_raise_explained {a : Byte} {s t : State} {c : Cause} (h : readReg a t = .error (.raise c)) :
    c.explainedBy s := by
  obtain ⟨ha, he⟩ := readReg_error h
  cases he
  exact ha

theorem writeReg_raise_explained {a v : Byte} {s t : State} {c : Cause} (h : writeReg a v t = .error (.raise c)) :
    c.explainedBy s := by
  obtain ⟨ha, he⟩ := writeReg_error h
  cases he
  exact ha

theorem jumpTo_raise_explained {a : Byte} {s t : State} {c : Cause} (h : jumpTo a t = .error (.raise c)) :
    c.explainedBy s := by
  obtain ⟨ha, he⟩ := jumpTo_error h
  cases he
  exact ha

theorem jumpWhen_raise_explained {taken : Bool} {v : Variant} {a : Byte} {s : State} {c : Cause}
    (h : jumpWhen taken v a s = .error (.raise c)) : c.explainedBy s := by
  cases taken with
  | true => exact jumpTo_raise_explained (t := s) h
  | false => cases h

theorem aluOperation_raise_explained {tag : AluTag} {a b : Byte} {s : State} {c : Cause}
    (h : aluOperation tag a b s = .error (.raise c)) : c.explainedBy s := by
  rcases aluOperation_error h with ⟨i, hi, he⟩ | ⟨hzero, he⟩
  · cases he
    exact hi
  · cases he
    exact readReg_ok_iff.1 hzero

theorem reserveSlot_raise_explained {s : State} {c : Cause} (h : reserveSlot s = .error (.raise c)) :
    c.explainedBy s := by
  rcases reserveSlot_error h with ⟨hzero, he⟩ | ⟨hpos, hbeyond, he⟩
  · cases he
    exact ⟨rfl, hzero⟩
  · cases he
    refine ⟨?_, hbeyond⟩
    bv_omega

/-- With SP_INIT at most MEM_SIZE a stack read is never out of bounds, so it stops on an underflow only. -/
theorem readTop_raise_explained {s : State} {c : Cause} (hsp : s.params.spInitLegal)
    (h : readTop s = .error (.raise c)) : c.explainedBy s := by
  obtain ⟨-, hle⟩ := hsp
  rcases readTop_error h with ⟨hunder, he⟩ | ⟨hlt, ⟨hbeyond, -⟩ | ⟨-, -, he⟩⟩
  · cases he
    exact ⟨rfl, .inl hunder⟩
  · omega
  · cases he

/-- POP finds 255 in R7 after its write only if it is POP R7 of the byte 255: SP itself was below SP_INIT. -/
theorem top_read_of_sp_wraps {a sp v : Byte} {s : State} (htop : readTop s = .ok (sp, v)) (ha : a.toNat < 8)
    (hwrap : (s.reg.set a.toNat v)[7] = 255) : s.mem.read sp.toNat = some 255 := by
  obtain ⟨rfl, hlt, -, hread⟩ := readTop_ok_iff.1 htop
  rw [Vector.getElem_set] at hwrap
  split at hwrap
  · rw [hread, hwrap]
  · have := s.params.spInit.isLt
    have : s.reg[7].toNat = 255 := by rw [hwrap]; rfl
    omega

/-- An instruction that raises a cause raises it in a state that explains it. -/
theorem handler_raise_explained {i : Instr} {s : State} {c : Cause} (hsp : s.params.spInitLegal)
    (h : handler i s = .error (.raise c)) : c.explainedBy s := by
  cases i with
  | halt => cases h
  | loadImmediate a imm => exact writeReg_raise_explained h
  | printRegister a =>
    rcases bind_error_iff.1 h with h | ⟨v, -, h⟩
    · exact readReg_raise_explained h
    · cases h
  | multiply a b => exact aluOperation_raise_explained (tag := .mul) h
  | add a b => exact aluOperation_raise_explained (tag := .add) h
  | modulo a b => exact aluOperation_raise_explained (tag := .mod) h
  | compare a b => exact aluOperation_raise_explained (tag := .cmp) h
  | push a =>
    rcases bind_error_iff.1 h with h | ⟨⟨slot, t⟩, hslot, h⟩
    · exact reserveSlot_raise_explained h
    · obtain ⟨-, -, hlt, rfl⟩ := reserveSlot_ok_iff.1 hslot
      rcases bind_error_iff.1 h with h | ⟨v, -, h⟩
      · exact readReg_raise_explained h
      · exact absurd hlt (Nat.not_lt.2 (memWrite_error h).1)
  | call a =>
    simp only [handler] at h
    split at h
    · rename_i hret
      cases h
      exact ⟨rfl, hret⟩
    · rcases bind_error_iff.1 h with h | ⟨⟨slot, t⟩, hslot, h⟩
      · exact reserveSlot_raise_explained h
      · obtain ⟨-, -, hlt, rfl⟩ := reserveSlot_ok_iff.1 hslot
        rcases bind_error_iff.1 h with h | ⟨t', -, h⟩
        · exact absurd hlt (Nat.not_lt.2 (memWrite_error h).1)
        · exact jumpTo_raise_explained h
  | pop a =>
    rcases bind_error_iff.1 h with h | ⟨⟨sp, v⟩, htop, h⟩
    · exact readTop_raise_explained hsp h
    · rcases bind_error_iff.1 h with h | ⟨t, hwrite, h⟩
      · exact writeReg_raise_explained h
      · obtain ⟨ha, rfl⟩ := writeReg_ok_iff.1 hwrite
        simp only [readReg_sp, bind_ok] at h
        split at h
        · rename_i hwrap
          cases h
          exact ⟨(readTop_ok_iff.1 htop).1, .inr (top_read_of_sp_wraps htop ha hwrap)⟩
        · cases h
  | ret =>
    rcases bind_error_iff.1 h with h | ⟨⟨sp, target⟩, -, h⟩
    · exact readTop_raise_explained hsp h
    · cases h
  | jump a => exact jumpTo_raise_explained h
  | jumpIfEqual a => exact jumpWhen_raise_explained h
  | jumpIfNotEqual a => exact jumpWhen_raise_explained h

/-- A fetch that raises a cause raises it in a state that explains it. -/
theorem fetch_raise_explained {s : State} {c : Cause} (h : fetch s = .error (.raise c)) : c.explainedBy s := by
  rcases fetch_error h with ⟨hbeyond, he⟩ | ⟨op, hread, hunknown, he⟩ | ⟨k, hk, hbeyond, he⟩ | ⟨a, -, -, he⟩
  · cases he
    exact ⟨rfl, hbeyond⟩
  · cases he
    exact ⟨hread, hunknown⟩
  · cases he
    exact ⟨hk.imp (congrArg (s.pc + ·)) (congrArg (s.pc + ·)), hbeyond⟩
  · cases he

/-! ## The fault record and `started` -/

/-- A state whose status is no fault has no fault record to explain. -/
theorem faultRecordInv_of_notFaulted {s : State} (h : s.notFaulted) : s.faultRecordInv :=
  fun c p hs => absurd hs (h c p)

/-- A fault taken where its cause is to be seen leaves a right fault record. -/
theorem takeFault_faultRecordInv {s : State} {c : Cause} (h : c.explainedBy s) : (s.takeFault c).faultRecordInv := by
  intro d p hs
  cases hs
  exact ⟨rfl, explainedBy_takeFault h⟩

/-- An instruction run from Running leaves a right fault record. -/
theorem exec_faultRecordInv {i : Instr} {s t : State} (hs : s.status = .running) (hsp : s.params.spInitLegal)
    (h : exec i s = .next t) : t.faultRecordInv := by
  rcases exec_next h with ⟨u, hu, rfl⟩ | ⟨c, hc, rfl⟩
  · refine faultRecordInv_of_notFaulted fun c p hfault => ?_
    rw [State.setPc_status, handler_status hs hu] at hfault
    split at hfault <;> cases hfault
  · exact takeFault_faultRecordInv (handler_raise_explained hsp hc)

/-- A step leaves a right fault record. -/
theorem step_faultRecordInv {s t : State} (hsp : s.params.spInitLegal) (h : step s = .next t) : t.faultRecordInv := by
  obtain ⟨hs, ⟨-, rfl⟩ | ⟨-, ⟨i, -, hexec⟩ | ⟨c, hfetch, rfl⟩⟩⟩ := step_next h
  · exact faultRecordInv_of_notFaulted fun c p hfault => nomatch hfault
  · exact exec_faultRecordInv (s := s.markStarted) hs hsp hexec
  · exact takeFault_faultRecordInv (fetch_raise_explained hfetch)

/-- A state that has neither halted nor faulted need not have taken a step. -/
theorem startedInv_of_not_stopped {s : State} (hhalt : s.status ≠ .halted) (hfault : s.notFaulted) : s.startedInv := by
  rintro (h | ⟨c, p, h⟩)
  · exact absurd h hhalt
  · exact absurd h (hfault c p)

/-- No instruction writes `started`. -/
theorem exec_keeps_started {i : Instr} {s t : State} (h : exec i s = .next t) : t.started = s.started := by
  rcases exec_next h with ⟨u, hu, rfl⟩ | ⟨c, -, rfl⟩
  · obtain ⟨-, hstarted, -⟩ := handler_completes hu
    exact hstarted
  · exact s.takeFault_started c

/-- After a step that halts or faults, `started` is set: only a sampled cancellation leaves it. -/
theorem step_startedInv {s t : State} (h : step s = .next t) : t.startedInv := by
  obtain ⟨-, ⟨-, rfl⟩ | ⟨-, ⟨i, -, hexec⟩ | ⟨c, -, rfl⟩⟩⟩ := step_next h
  · exact startedInv_of_not_stopped nofun nofun
  · exact fun _ => exec_keeps_started hexec
  · exact fun _ => rfl

/-- Settles O17, clause by clause: the fault record needs SP_INIT at most MEM_SIZE, which is part of the legal
parameters, and the other clauses need only themselves. -/
theorem stepKeepsInvariant : Obligations.StepKeepsInvariant := by
  rintro s t ⟨hlegal, hmem, hpc, -, -⟩ h
  have hparams := (stepKeepsParametersAndRequest s t h).1
  have ⟨_, hsp, _⟩ := hlegal
  exact ⟨hparams ▸ hlegal, step_keeps_memoryInv hmem h, stepKeepsPcRange s t hpc h, step_faultRecordInv hsp h,
    step_startedInv h⟩

/-! ## What an instruction leaves of the registers and of the rest of the state -/

/-- Settles O30: a completed instruction writes its listed registers only, and a fault writes none. -/
theorem registersWrittenAsListed : Obligations.RegistersWrittenAsListed := by
  intro i s t r h hr
  rcases exec_next h with ⟨u, hu, rfl⟩ | ⟨c, -, rfl⟩
  · obtain ⟨-, -, -, -, -, -, -, hreg, -⟩ := handler_completes hu
    exact hreg r hr
  · rfl

/-- Settles O33: each clause is the frame of the handler where it completes, and the frame of a fault where it does
not. -/
theorem frameOfRegisterInstructions : Obligations.FrameOfRegisterInstructions := by
  intro i s t hi h
  have hregs := fun r => registersWrittenAsListed i s t r h
  have hstarted := exec_keeps_started h
  obtain ⟨hparams, hrequest⟩ := exec_keeps_params_and_request h
  rcases exec_next h with ⟨u, hu, rfl⟩ | ⟨c, -, rfl⟩
  · obtain ⟨-, -, -, hfl, hmem, hstatus, -, -, hout, -⟩ := handler_completes hu
    have hstore : u.mem = s.mem :=
      hmem (fun a e => hi (by simp [e, Instr.variant])) (fun a e => hi (by simp [e, Instr.variant]))
    exact ⟨fun a => congrArg (·.read a) hstore, hregs, fun hv => hfl fun a b e => hv (congrArg Instr.variant e),
      fun hv => hout fun a e => hv (congrArg Instr.variant e),
      fun hv => .inl (hstatus fun e => hv (congrArg Instr.variant e)), hparams, hstarted, hrequest⟩
  · exact ⟨fun _ => rfl, hregs, fun _ => rfl, fun _ => rfl, fun _ => .inr ⟨c, rfl⟩, hparams, hstarted, hrequest⟩

/-! ## The state after reset (10_state.md R33) -/

/-- The reset state of a machine with legal parameters meets the invariant: its memory is MEM_INIT, which is legal, and
no step has been taken. -/
theorem resetWith_inv {p : Params} (hlegal : p.legal) : (State.resetWith p).Inv := by
  have ⟨_, _, hsorted, hbound⟩ := hlegal
  exact ⟨hlegal, ⟨⟨hsorted, fun _ _ => nofun⟩, hbound⟩, Nat.zero_le _, faultRecordInv_of_notFaulted nofun,
    startedInv_of_not_stopped nofun nofun⟩

/-- Settles O16: the parameters of this hardware are legal. -/
theorem resetMeetsInvariant : Obligations.ResetMeetsInvariant :=
  ⟨resetWith_inv (by decide), fun _ hlegal => resetWith_inv hlegal⟩

/-- R7 after reset is SP_INIT. -/
theorem resetWith_sp (p : Params) : (State.resetWith p).reg[7] = p.spInit := Vector.getElem_push_eq

/-- R0 to R6 after reset are REG_INIT. -/
theorem resetWith_general (p : Params) (r : Fin 7) : (State.resetWith p).reg[r.val] = p.regInit[r] :=
  Vector.getElem_push_lt r.isLt

/-- Settles O54: the registers by the two lemmas above, every other field by the definition of reset. -/
theorem resetEstablishesTheState : Obligations.ResetEstablishesTheState := by
  exact ⟨fun s => ⟨rfl, rfl, resetWith_sp s.params, resetWith_general s.params, fun _ => rfl, rfl, rfl, rfl, rfl, rfl⟩,
    rfl, resetWith_sp Config.reference, rfl, rfl, rfl, rfl, rfl, fun _ => rfl⟩

/-! ## A change of state an instruction does not see

FL and a register that an instruction neither reads nor writes are changed by `g`; the instruction then does the same as
before, and `g` can as well be applied after it. -/

/-- `g` changes nothing but FL and registers outside `R`: it can be moved past every operation on the rest. -/
structure Unseen (R : Byte → Prop) (g : State → State) : Prop where
  pc : ∀ s, (g s).pc = s.pc
  params : ∀ s, (g s).params = s.params
  mem : ∀ s, (g s).mem = s.mem
  setPc : ∀ s p, (g s).setPc p = g (s.setPc p)
  putMem : ∀ s m, (g s).putMem m = g (s.putMem m)
  setStatus : ∀ s st, (g s).setStatus st = g (s.setStatus st)
  emit : ∀ s v, (g s).emit v = g (s.emit v)
  readReg : ∀ x s, R x → readReg x (g s) = readReg x s
  writeReg : ∀ x v s, R x → writeReg x v (g s) = (writeReg x v s).map g

/-- Any FL is unseen, whatever registers are named. -/
theorem unseen_setFlag (f : Flag) : Unseen (fun _ => True) (·.setFlag f) where
  pc _ := rfl
  params _ := rfl
  mem _ := rfl
  setPc _ _ := rfl
  putMem _ _ := rfl
  setStatus _ _ := rfl
  emit _ _ := rfl
  readReg _ _ _ := rfl
  writeReg x v s _ := by
    by_cases hx : x.toNat < 8
    · rw [writeReg_ok v _ hx, writeReg_ok v _ hx]
      rfl
    · rw [writeReg_bad v _ (Nat.not_lt.1 hx), writeReg_bad v _ (Nat.not_lt.1 hx)]
      rfl

/-- The value of a register is unseen where the register is not named. -/
theorem unseen_withReg (r : Fin 8) (v : Byte) : Unseen (fun x => x.toNat ≠ r) (·.withReg r v) where
  pc _ := rfl
  params _ := rfl
  mem _ := rfl
  setPc _ _ := rfl
  putMem _ _ := rfl
  setStatus _ _ := rfl
  emit _ _ := rfl
  readReg x s hx := by
    by_cases hlt : x.toNat < 8
    · rw [readReg_ok _ hlt, readReg_ok _ hlt]
      exact congrArg Except.ok (Vector.getElem_set_ne r.isLt hlt hx.symm)
    · rw [readReg_bad _ (Nat.not_lt.1 hlt), readReg_bad _ (Nat.not_lt.1 hlt)]
  writeReg x w s hx := by
    by_cases hlt : x.toNat < 8
    · rw [writeReg_ok w _ hlt, writeReg_ok w _ hlt]
      exact congrArg (fun reg => Except.ok (s.putReg reg)) (Vector.set_comm _ _ hx.symm)
    · rw [writeReg_bad w _ (Nat.not_lt.1 hlt), writeReg_bad w _ (Nat.not_lt.1 hlt)]
      rfl

/-- Two sequences whose parts correspond under `k` and `g` correspond under `g`. -/
theorem bind_map_congr {α β γ δ : Type} {x : Except Stop α} {y : Except Stop β} {k : α → β} {g : γ → δ}
    {f : α → Except Stop γ} {f' : β → Except Stop δ} (hx : y = x.map k) (hf : ∀ a, f' (k a) = (f a).map g) :
    (y >>= f') = (x >>= f).map g := by
  subst hx
  cases x with
  | ok a => exact hf a
  | error e => rfl

/-- Two sequences that begin alike correspond where their continuations do. -/
theorem bind_map_right {α γ δ : Type} {x y : Except Stop α} {g : γ → δ} {f : α → Except Stop γ}
    {f' : α → Except Stop δ} (hx : y = x) (hf : ∀ a, f' a = (f a).map g) : (y >>= f') = (x >>= f).map g :=
  bind_map_congr (k := id) (by cases x <;> exact hx) hf

section
variable {R : Byte → Prop} {g : State → State} (hg : Unseen R g)
include hg

theorem Unseen.checkAddr (kind : AccessKind) (a : Nat) (s : State) : checkAddr kind a (g s) = checkAddr kind a s := by
  unfold Machine.checkAddr
  rw [hg.params]

theorem Unseen.memRead (kind : AccessKind) (a : Nat) (s : State) : memRead kind a (g s) = memRead kind a s := by
  unfold Machine.memRead readCell
  rw [hg.checkAddr, hg.mem]

theorem Unseen.memWrite (kind : AccessKind) (a : Nat) (v : Byte) (s : State) :
    memWrite kind a v (g s) = (memWrite kind a v s).map g :=
  bind_map_right (hg.checkAddr kind a s) fun _ => by
    rw [hg.mem, hg.putMem]
    rfl

theorem Unseen.readPair {a b : Byte} (ha : R a) (hb : R b) (s : State) : readPair a b (g s) = readPair a b s := by
  unfold Machine.readPair
  rw [hg.readReg a s ha, hg.readReg b s hb]

theorem Unseen.aluOperation {tag : AluTag} {a b : Byte} (ha : R a) (hb : R b)
    (hcmp : tag = .cmp → ∀ t f, (g t).setFlag f = g (t.setFlag f)) (s : State) :
    aluOperation tag a b (g s) = (aluOperation tag a b s).map g := by
  refine bind_map_right (hg.readPair ha hb s) fun ⟨va, vb⟩ => ?_
  cases tag with
  | add => exact hg.writeReg _ _ s ha
  | mul => exact hg.writeReg _ _ s ha
  | mod =>
    by_cases hz : vb = 0
    · simp only [alu, if_pos hz]
      rfl
    · simp only [alu, if_neg hz]
      exact hg.writeReg _ _ s ha
  | cmp => exact congrArg Except.ok (hcmp rfl s _)

theorem Unseen.jumpTo {a : Byte} (ha : R a) (s : State) : jumpTo a (g s) = (jumpTo a s).map g := by
  unfold Machine.jumpTo branchTarget
  rw [hg.readReg a s ha]
  exact bind_map_right rfl fun p => congrArg Except.ok (hg.setPc s p)

theorem Unseen.jumpWhen {taken : Bool} {a : Byte} (ha : taken = true → R a) (v : Variant) (s : State) :
    jumpWhen taken v a (g s) = (jumpWhen taken v a s).map g := by
  cases taken with
  | true => exact hg.jumpTo (ha rfl) s
  | false =>
    refine congrArg Except.ok ?_
    rw [hg.setPc, pcInc, hg.pc, ← pcInc]

theorem Unseen.reserveSlot (h7 : R Config.spIndex) (s : State) :
    reserveSlot (g s) = (reserveSlot s).map (Prod.map id g) := by
  refine bind_map_right (hg.readReg _ s h7) fun sp => ?_
  by_cases hz : sp = 0
  · simp only [if_pos hz]
    rfl
  · simp only [if_neg hz]
    exact bind_map_right (hg.checkAddr _ _ s) fun _ => bind_map_congr (hg.writeReg _ _ s h7) fun _ => rfl

theorem Unseen.readTop (h7 : R Config.spIndex) (s : State) : readTop (g s) = readTop s := by
  unfold Machine.readTop
  simp only [hg.readReg _ s h7, hg.params, hg.memRead]

/-- A handler that names registers of `R` only, and tests FL as before, does not see `g`. -/
theorem Unseen.handler {i : Instr} {s : State} (hregs : ∀ x ∈ readsReg s.fl i ++ writesReg i, R x)
    (hcmp : ∀ a b, i = .compare a b → ∀ t f, (g t).setFlag f = g (t.setFlag f))
    (hjump : ∀ a, i = .jumpIfEqual a ∨ i = .jumpIfNotEqual a → flagIsEqual (g s).fl = flagIsEqual s.fl) :
    handler i (g s) = (handler i s).map g := by
  cases i with
  | halt => exact congrArg Except.ok (hg.setStatus s .halted)
  | loadImmediate a imm => exact hg.writeReg _ _ s (hregs a (by simp [writesReg]))
  | printRegister a =>
    exact bind_map_right (hg.readReg a s (hregs a (by simp [readsReg]))) fun v => congrArg Except.ok (hg.emit s v)
  | multiply a b =>
    exact hg.aluOperation (tag := .mul) (hregs a (by simp [readsReg])) (hregs b (by simp [readsReg])) nofun s
  | add a b =>
    exact hg.aluOperation (tag := .add) (hregs a (by simp [readsReg])) (hregs b (by simp [readsReg])) nofun s
  | modulo a b =>
    exact hg.aluOperation (tag := .mod) (hregs a (by simp [readsReg])) (hregs b (by simp [readsReg])) nofun s
  | compare a b =>
    exact hg.aluOperation (tag := .cmp) (hregs a (by simp [readsReg])) (hregs b (by simp [readsReg]))
      (fun _ => hcmp a b rfl) s
  | push a =>
    refine bind_map_congr (hg.reserveSlot (hregs _ (by simp [readsReg])) s) fun ⟨slot, t⟩ => ?_
    exact bind_map_right (hg.readReg a t (hregs a (by simp [readsReg]))) fun v => hg.memWrite _ _ v t
  | pop a =>
    have h7 : R Config.spIndex := hregs _ (by simp [readsReg])
    refine bind_map_right (hg.readTop h7 s) fun ⟨sp, v⟩ => ?_
    refine bind_map_congr (hg.writeReg a v s (hregs a (by simp [writesReg]))) fun t => ?_
    refine bind_map_right (hg.readReg _ t h7) fun top => ?_
    by_cases hwrap : top = 255
    · simp only [if_pos hwrap]
      rfl
    · simp only [if_neg hwrap]
      exact hg.writeReg _ _ t h7
  | call a =>
    simp only [Machine.handler, hg.pc]
    split
    · rfl
    · refine bind_map_congr (hg.reserveSlot (hregs _ (by simp [readsReg])) s) fun ⟨slot, t⟩ => ?_
      exact bind_map_congr (hg.memWrite _ _ _ t) fun u => hg.jumpTo (hregs a (by simp [readsReg])) u
  | ret =>
    have h7 : R Config.spIndex := hregs _ (by simp [readsReg])
    refine bind_map_right (hg.readTop h7 s) fun ⟨sp, target⟩ => ?_
    exact bind_map_congr (hg.writeReg _ _ s h7) fun t => congrArg Except.ok (hg.setPc t _)
  | jump a => exact hg.jumpTo (hregs a (by simp [readsReg])) s
  | jumpIfEqual a =>
    simp only [Machine.handler, hjump a (.inl rfl)]
    exact hg.jumpWhen (fun htaken => hregs a (by simpa [readsReg, writesReg, flagIsEqual] using htaken)) _ s
  | jumpIfNotEqual a =>
    simp only [Machine.handler, hjump a (.inr rfl)]
    exact hg.jumpWhen (fun htaken => hregs a (by simpa [readsReg, writesReg, flagIsEqual] using htaken)) _ s

theorem Unseen.commit (v : Variant) (s : State) (r : Except Stop State) :
    commit v (g s) (r.map g) = mapNext g (commit v s r) := by
  rcases r with (c | a) | t
  · exact congrArg Host.Outcome.next (by rw [State.takeFault, hg.pc, hg.setStatus]; rfl)
  · rfl
  · exact congrArg Host.Outcome.next (by rw [hg.pc, hg.setPc, pcInc, hg.pc, ← pcInc])

/-- An instruction that names registers of `R` only, and tests FL as before, does the same but for `g`. -/
theorem Unseen.exec {i : Instr} {s : State} (hregs : ∀ x ∈ readsReg s.fl i ++ writesReg i, R x)
    (hcmp : ∀ a b, i = .compare a b → ∀ t f, (g t).setFlag f = g (t.setFlag f))
    (hjump : ∀ a, i = .jumpIfEqual a ∨ i = .jumpIfNotEqual a → flagIsEqual (g s).fl = flagIsEqual s.fl) :
    exec i (g s) = mapNext g (exec i s) := by
  rw [exec_eq_commit, exec_eq_commit, hg.handler hregs hcmp hjump, hg.commit]

end

/-- Settles O31: the register is unseen, and its value has no part in FL. -/
theorem registersReadAsListed : Obligations.RegistersReadAsListed := by
  intro i s r v hreads hwrites
  refine (unseen_withReg r v).exec (fun x hx => ?_) (fun _ _ _ _ _ => rfl) (fun _ _ => rfl)
  exact (List.mem_append.1 hx).elim (hreads x) (hwrites x)

/-- Any FL is unseen by an instruction other than COMPARE that tests FL for EQ as before. -/
theorem exec_setFlag {i : Instr} {s : State} {f : Flag} (hcmp : ∀ a b, i ≠ .compare a b)
    (hjump : ∀ a, i = .jumpIfEqual a ∨ i = .jumpIfNotEqual a → flagIsEqual f = flagIsEqual s.fl) :
    exec i (s.setFlag f) = mapNext (·.setFlag f) (exec i s) :=
  (unseen_setFlag f).exec (fun _ _ => trivial) (fun a b e => absurd e (hcmp a b)) hjump

/-- COMPARE writes FL from the register pair it reads, and does nothing else. -/
theorem handler_compare (a b : Byte) (s : State) :
    handler (.compare a b) s = (readPair a b s).map fun p => s.setFlag (compareFlag p.1 p.2) := by
  cases h : readPair a b s <;> simp [handler, aluOperation, h, alu, Except.map]

/-- COMPARE does the same whatever FL is. -/
theorem handler_compare_setFlag (a b : Byte) (s : State) (f : Flag) :
    handler (.compare a b) (s.setFlag f) = handler (.compare a b) s := by
  rw [handler_compare, handler_compare, (unseen_setFlag f).readPair trivial trivial]
  rfl

/-- A flag other than EQ is tested as not EQ. -/
theorem flagIsEqual_of_ne {f : Flag} (h : f ≠ .eq) : flagIsEqual f = false := by
  simpa [flagIsEqual] using h

/-- Settles O22: FL is unseen by every instruction but COMPARE, which overwrites it, and the conditional jumps, which
test it for EQ. -/
theorem flagsAreWrittenAndReadAsStated : Obligations.FlagsAreWrittenAndReadAsStated := by
  refine ⟨?written, ?unread, ?compareCompletes, ?compareFaults, ?tested⟩
  case written =>
    intro i s t hi h
    rcases exec_next h with ⟨u, hu, rfl⟩ | ⟨c, -, rfl⟩
    · obtain ⟨-, -, -, hfl, -⟩ := handler_completes hu
      exact hfl hi
    · rfl
  case unread =>
    intro i s f hjeq hjne hcmp
    exact exec_setFlag hcmp fun a hi => absurd hi (not_or.2 ⟨hjeq a, hjne a⟩)
  case compareCompletes =>
    intro a b s t f h hn
    obtain ⟨u, hu, rfl⟩ := exec_completed h hn
    show exec _ (s.setFlag f) = _
    rw [exec_eq_commit, handler_compare_setFlag, hu]
    rfl
  case compareFaults =>
    intro a b s t f hs h hfault
    rcases exec_next h with ⟨u, hu, rfl⟩ | ⟨c, hc, rfl⟩
    · exact absurd (fun c p e => nomatch (handler_status hs hu).symm.trans e) hfault
    · show exec _ (s.setFlag f) = _
      rw [exec_eq_commit, handler_compare_setFlag, hc]
      rfl
  case tested =>
    intro a s f g hf hg
    have htest : flagIsEqual f = flagIsEqual g := (flagIsEqual_of_ne hf).trans (flagIsEqual_of_ne hg).symm
    exact ⟨exec_setFlag (s := s.setFlag g) nofun fun _ _ => htest,
      exec_setFlag (s := s.setFlag g) nofun fun _ _ => htest⟩

end Sys2Proof.Machine

namespace Sys2Proof.Machine

/-! ## Memory: what a step keeps of it and where it is written (20_memory.md) -/

/-- Settles O18: every step keeps the memory invariant, by its own lemma. -/
theorem stepKeepsMemoryForm : Obligations.StepKeepsMemoryForm :=
  fun _ _ hinv h => step_keeps_memoryInv hinv h

/-- Settles O28: the handler of any other instruction leaves the memory where it completes, and a fault discards every
write. -/
theorem onlyPushAndCallWriteMemory : Obligations.OnlyPushAndCallWriteMemory := by
  intro i s t hpush hcall h
  rcases exec_next h with ⟨u, hu, rfl⟩ | ⟨c, -, rfl⟩
  · obtain ⟨-, -, -, -, hmem, -⟩ := handler_completes hu
    exact hmem hpush hcall
  · exact s.takeFault_mem c

/-! ## The store of PUSH and CALL (43_stack.md R106, 44_call_return.md R115) -/

/-- The slot below a stack pointer that is not 0. -/
theorem toNat_sub_one {sp : Byte} (hpos : 0 < sp.toNat) : (sp - 1).toNat = sp.toNat - 1 := by
  bv_omega

/-- A register read after SP is written gives the new SP or the old register. -/
theorem readReg_after_sp {a : Byte} (s : State) (v : Byte) (ha : a.toNat < 8) :
    readReg a (s.putReg (s.reg.set 7 v)) = .ok (if a = 7 then v else s.reg[a.toNat]) := by
  have h7 : 7 = a.toNat ↔ a = 7 := by
    bv_omega
  rw [readReg_ok _ ha, State.putReg_reg, Vector.getElem_set]
  simp only [h7]

/-- A slot is reserved where SP is not 0 and the cell below it is in bounds. -/
theorem reserveSlot_of_room {s : State} (hpos : 0 < s.reg[7].toNat) (hroom : s.reg[7].toNat - 1 < s.params.memSize) :
    reserveSlot s = .ok (s.reg[7] - 1, s.putReg (s.reg.set 7 (s.reg[7] - 1))) := by
  have hne : s.reg[7] ≠ 0 := by
    bv_omega
  exact reserveSlot_ok_iff.2 ⟨hne, rfl, toNat_sub_one hpos ▸ hroom, rfl⟩

/-- A write in bounds completes whatever the registers are: it looks at MEM_SIZE only. -/
theorem memWrite_putReg {kind : AccessKind} {a : Nat} {s : State} (r : Vector Byte 8) (v : Byte)
    (ha : a < s.params.memSize) :
    memWrite kind a v (s.putReg r) = .ok ((s.putReg r).putMem (s.mem.write a v)) :=
  memWrite_ok_iff.2 ⟨ha, rfl⟩

/-- A jump after SP and the memory are written goes to the new SP or to the old register. -/
theorem jumpTo_after_store {a : Byte} (s : State) (v : Byte) (m : Memory) (ha : a.toNat < 8) :
    jumpTo a ((s.putReg (s.reg.set 7 v)).putMem m) =
      .ok (((s.putReg (s.reg.set 7 v)).putMem m).setPc (if a = 7 then v else s.reg[a.toNat]).toNat) :=
  jumpTo_ok_iff.2 ⟨_, readReg_after_sp (s.putMem m) v ha, rfl⟩

/-- The whole next state of a PUSH that completes. -/
theorem exec_push_completes {a : Byte} {s : State} (ha : a.toNat < 8) (hpos : 0 < s.reg[7].toNat)
    (hroom : s.reg[7].toNat - 1 < s.params.memSize) :
    exec (.push a) s = .next { s with
      reg := s.reg.set 7 (s.reg[7] - 1)
      mem := s.mem.write (s.reg[7].toNat - 1) (if a = 7 then s.reg[7] - 1 else s.reg[a.toNat])
      pc := s.pc + 2 } := by
  rw [exec_eq_commit]
  simp only [handler, reserveSlot_of_room hpos hroom, bind_ok, readReg_after_sp s _ ha, toNat_sub_one hpos,
    memWrite_putReg _ _ hroom, commit_ok, Instr.variant, setsPc_push, selectNextPc_false, pcInc,
    operandCount_push]
  rfl

/-- The whole next state of a CALL that completes. -/
theorem exec_call_completes {a : Byte} {s : State} (ha : a.toNat < 8) (hret : s.pc + 2 ≤ 255)
    (hpos : 0 < s.reg[7].toNat) (hroom : s.reg[7].toNat - 1 < s.params.memSize) :
    exec (.call a) s = .next { s with
      reg := s.reg.set 7 (s.reg[7] - 1)
      mem := s.mem.write (s.reg[7].toNat - 1) (BitVec.ofNat 8 (s.pc + 2))
      pc := if a = 7 then s.reg[7].toNat - 1 else s.reg[a.toNat].toNat } := by
  rw [exec_eq_commit]
  simp only [handler, if_neg (Nat.not_lt.2 hret), reserveSlot_of_room hpos hroom, bind_ok, toNat_sub_one hpos,
    memWrite_putReg _ _ hroom, jumpTo_after_store s _ _ ha, apply_ite BitVec.toNat, commit_ok, Instr.variant,
    setsPc_call, selectNextPc_true]
  rfl

/-- A read of the cell last written gives the byte written there, whatever kind of access it is. -/
theorem memRead_written {kind : AccessKind} {a : Nat} {v : Byte} {m : Memory} {t : State}
    (ha : a < t.params.memSize) (hmem : t.mem = m.write a v) : memRead kind a t = .ok v :=
  memRead_ok_iff.2 ⟨ha, by rw [hmem, Memory.read_write, if_pos rfl]⟩

/-- Settles O53: the next state of each is known, and its memory is a write to the slot the fetch reads. -/
theorem storedBytesAreFetchedAtOnce : Obligations.StoredBytesAreFetchedAtOnce := by
  intro a s ha hpos hroom
  exact ⟨⟨_, exec_push_completes ha hpos hroom, memRead_written hroom rfl⟩,
    fun hret => ⟨_, exec_call_completes ha hret hpos hroom, memRead_written hroom rfl⟩⟩

end Sys2Proof.Machine

namespace Sys2Proof

/-! ## The opcode byte: its fields, and the bytes outside the table (30_encoding.md R57 to R59, R63, R66, R67) -/

/-- A bit of a byte is the parity of a quotient. -/
theorem getLsbD_iff_div_mod (op : Byte) (k : Nat) : op.getLsbD k = true ↔ op.toNat / 2 ^ k % 2 = 1 := by
  rw [← BitVec.testBit_toNat, Nat.testBit_eq_decide_div_mod_eq, decide_eq_true_iff]

/-- The two top bits of a byte are its quotient by 64. -/
theorem operandCount_eq_div (op : Byte) : operandCount op = op.toNat / 64 := by
  have hlt : op.toNat / 64 < 4 := by omega
  rw [operandCount, BitVec.extractLsb'_toNat, Nat.shiftRight_eq_div_pow]
  exact Nat.mod_eq_of_lt hlt

/-- Settles O4: operand count, `sets_pc` and `alu` are bit fields of the byte, and a bit field is a quotient. -/
theorem opcodeBitsOfEveryByte : Obligations.OpcodeBitsOfEveryByte := fun op =>
  ⟨operandCount_eq_div op, getLsbD_iff_div_mod op 4, getLsbD_iff_div_mod op 5⟩

/-- Every variant's opcode byte is in the list of R66. -/
theorem opcode_mem_legalOpcodes (v : Variant) : v.opcode ∈ legalOpcodes := by
  cases v <;> decide

/-- A byte outside the list of R66 dispatches to Unknown. -/
theorem dispatch_of_not_legal {op : Byte} (hop : op ∉ legalOpcodes) : dispatch op = none := by
  cases hd : dispatch op with
  | none => rfl
  | some v => exact absurd (opcode_of_dispatch hd ▸ opcode_mem_legalOpcodes v) hop

/-- Settles O5: each row's byte is its variant's opcode, with the bits of the row, and a byte outside the list of R66
is no variant's opcode. -/
theorem opcodeTableRows : Obligations.OpcodeTableRows :=
  ⟨⟨dispatch_opcode .halt, rfl⟩, ⟨dispatch_opcode .loadImmediate, rfl⟩, ⟨dispatch_opcode .printRegister, rfl⟩,
    ⟨dispatch_opcode .multiply, rfl⟩, ⟨dispatch_opcode .add, rfl⟩, ⟨dispatch_opcode .modulo, rfl⟩,
    ⟨dispatch_opcode .push, rfl⟩, ⟨dispatch_opcode .pop, rfl⟩, ⟨dispatch_opcode .call, rfl⟩,
    ⟨dispatch_opcode .ret, rfl⟩, ⟨dispatch_opcode .compare, rfl⟩, ⟨dispatch_opcode .jump, rfl⟩,
    ⟨dispatch_opcode .jumpIfEqual, rfl⟩, ⟨dispatch_opcode .jumpIfNotEqual, rfl⟩,
    fun _ hop => dispatch_of_not_legal hop⟩

/-! ## Counting the bytes outside a list (30_encoding.md R67) -/

/-- The numbers below 256 whose byte is in a list without repetitions are the list's own bytes. -/
theorem filter_mem_perm {l : List Byte} (hl : l.Nodup) :
    ((List.range 256).filter fun n => BitVec.ofNat 8 n ∈ l).Perm (l.map BitVec.toNat) := by
  refine (List.perm_ext_iff_of_nodup (List.nodup_range.filter _) (hl.map BitVec.toNat_injective)).2 fun n => ?_
  simp only [List.mem_filter, List.mem_range, decide_eq_true_eq, List.mem_map]
  constructor
  · rintro ⟨hn, hmem⟩
    exact ⟨_, hmem, (BitVec.toNat_ofNat n 8).trans (Nat.mod_eq_of_lt hn)⟩
  · rintro ⟨op, hop, rfl⟩
    exact ⟨op.isLt, by rwa [BitVec.ofNat_toNat, BitVec.setWidth_eq]⟩

/-- All other numbers below 256 have a byte outside the list. -/
theorem length_filter_not_mem {l : List Byte} (hl : l.Nodup) :
    ((List.range 256).filter fun n => BitVec.ofNat 8 n ∉ l).length = 256 - l.length := by
  have hin := (filter_mem_perm hl).length_eq
  have hsplit := List.length_eq_length_filter_add (l := List.range 256) fun n => decide (BitVec.ofNat 8 n ∈ l)
  simp only [List.length_range, List.length_map, ← decide_not] at hin hsplit
  omega

/-! ## Decoding and encoding are inverse (30_encoding.md R55, R64, R68) -/

/-- The bytes an operand takes in the encoding: itself if it is declared, none if it is not (30_encoding.md R55). -/
def operandBytes (declared : Bool) (x : Byte) : List Byte := if declared then [x] else []

/-- Taking an operand from the bytes it is encoded as gives it back; one that is not declared reads as 0. -/
theorem takeOperand_operandBytes (declared : Bool) (k : Nat) (x : Byte) (rest : List Byte) :
    takeOperand declared k (operandBytes declared x ++ rest) = .ok (if declared then x else 0, rest) := by
  cases declared <;> rfl

/-- The bytes an operand was taken from are the bytes it is encoded as. -/
theorem takeOperand_ok {declared : Bool} {k : Nat} {x : Byte} {bytes rest : List Byte}
    (h : takeOperand declared k bytes = .ok (x, rest)) : bytes = operandBytes declared x ++ rest := by
  cases declared with
  | false =>
    cases h
    rfl
  | true =>
    cases bytes with
    | nil => cases h
    | cons y ys =>
      cases h
      rfl

/-- The encoding of an instruction is its opcode byte and its declared operand bytes, A before B
(30_encoding.md R55, R64, R69). -/
theorem encode_assemble (v : Variant) (a b : Byte) :
    encode (assemble v a b) = v.opcode :: (operandBytes (1 ≤ operandCount v.opcode) a ++
      operandBytes (2 ≤ operandCount v.opcode) b) := by
  cases v <;> rfl

/-- An operand that is not declared does not matter to the instruction (30_encoding.md R64, R68). -/
theorem assemble_declared (v : Variant) (a b : Byte) :
    assemble v (if decide (1 ≤ operandCount v.opcode) then a else 0)
      (if decide (2 ≤ operandCount v.opcode) then b else 0) = assemble v a b := by
  cases v <;> rfl

/-- Every instruction is assembled from its variant and two operand bytes. -/
theorem exists_eq_assemble (i : Instr) : ∃ a b, i = assemble i.variant a b := by
  cases i with
  | halt | ret => exact ⟨0, 0, rfl⟩
  | printRegister a | push a | pop a | call a | jump a | jumpIfEqual a | jumpIfNotEqual a => exact ⟨a, 0, rfl⟩
  | loadImmediate a b | multiply a b | add a b | modulo a b | compare a b => exact ⟨a, b, rfl⟩

/-- A sequence of decoder operations answers a value exactly where each of them does. -/
theorem decode_bind_ok_iff {α β : Type} {x : Except DecodeReject α} {f : α → Except DecodeReject β} {r : β} :
    (x >>= f) = .ok r ↔ ∃ a, x = .ok a ∧ f a = .ok r := by
  cases x <;> simp [bind, Except.bind]

/-- Decoding after a variant's opcode byte succeeds exactly where operand A can be taken, then operand B. -/
theorem decode_opcode_ok_iff {v : Variant} {bytes rest : List Byte} {i : Instr} :
    decode (v.opcode :: bytes) = .ok (i, rest) ↔
      ∃ a b mid, takeOperand (1 ≤ operandCount v.opcode) 1 bytes = .ok (a, mid) ∧
        takeOperand (2 ≤ operandCount v.opcode) 2 mid = .ok (b, rest) ∧ i = assemble v a b := by
  rw [decode, dispatch_opcode]
  constructor
  · intro h
    obtain ⟨⟨a, mid⟩, ha, h⟩ := decode_bind_ok_iff.1 h
    obtain ⟨⟨b, tail⟩, hb, h⟩ := decode_bind_ok_iff.1 h
    cases h
    exact ⟨a, b, mid, ha, hb, rfl⟩
  · rintro ⟨a, b, mid, ha, hb, rfl⟩
    exact decode_bind_ok_iff.2 ⟨_, ha, decode_bind_ok_iff.2 ⟨_, hb, rfl⟩⟩

/-- A byte outside the list of R66 is rejected by name, whatever follows it (30_encoding.md R67). -/
theorem decode_of_not_legal {op : Byte} (rest : List Byte) (hop : op ∉ legalOpcodes) :
    decode (op :: rest) = .error (.unknownOpcode op) := by
  rw [decode, dispatch_of_not_legal hop]

/-- A list that decodes begins with an opcode byte. -/
theorem exists_opcode_of_decode_ok {bytes rest : List Byte} {i : Instr} (h : decode bytes = .ok (i, rest)) :
    ∃ (v : Variant) (tail : List Byte), bytes = v.opcode :: tail := by
  cases bytes with
  | nil => cases h
  | cons op tail =>
    cases hd : dispatch op with
    | none => simp [decode, hd] at h
    | some v => exact ⟨v, tail, congrArg (· :: tail) (opcode_of_dispatch hd)⟩

/-- Settles O1: an instruction is assembled from its variant and two operands, and each operand is taken from the bytes
it is encoded as. -/
theorem decodeInvertsEncode : Obligations.DecodeInvertsEncode := by
  intro i rest
  obtain ⟨a, b, hi⟩ := exists_eq_assemble i
  rw [hi, encode_assemble, List.cons_append, List.append_assoc]
  exact decode_opcode_ok_iff.2 ⟨_, _, _, takeOperand_operandBytes _ 1 a _, takeOperand_operandBytes _ 2 b rest,
    (assemble_declared i.variant a b).symm⟩

/-- Settles O2: the list is the opcode byte and the declared operand bytes of the instruction, which is how it is
encoded. -/
theorem encodeInvertsDecode : Obligations.EncodeInvertsDecode := by
  intro bytes rest i h
  obtain ⟨v, tail, rfl⟩ := exists_opcode_of_decode_ok h
  obtain ⟨a, b, mid, ha, hb, rfl⟩ := decode_opcode_ok_iff.1 h
  rw [takeOperand_ok ha, takeOperand_ok hb, encode_assemble, List.cons_append, List.append_assoc]

end Sys2Proof

namespace Sys2Proof.Machine

/-! ## The fetch of a byte outside the table (30_encoding.md R67) -/

/-- A fetch of an opcode byte that dispatches to Unknown stops there (30_encoding.md R67). -/
theorem fetch_of_not_legal {s : State} {op : Byte} (hop : op ∉ legalOpcodes) (hpc : s.pc < s.params.memSize)
    (hread : s.mem.read s.pc = some op) : fetch s = .error (.raise (.decodeError op)) := by
  rw [fetch, memRead_ok_iff.2 ⟨hpc, hread⟩, bind_ok, dispatch_of_not_legal hop]
  rfl

/-- Settles O3: a byte outside the list of R66 dispatches to Unknown, where decoding and fetching stop, and the list has
fourteen different bytes. -/
theorem unknownOpcodeIsDecodeError : Obligations.UnknownOpcodeIsDecodeError := by
  refine ⟨fun op rest hop => decode_of_not_legal rest hop, fun op s hop hs hc hpc hread => ?_,
    length_filter_not_mem (by decide)⟩
  rw [step_running hs hc, fetch_of_not_legal (s := s.markStarted) hop hpc hread]
  rfl

end Sys2Proof.Machine

namespace Sys2Proof.Machine

/-! ## What a fetch finds (40_execution_loop.md R76 to R79) -/

/-- An access at or above MEM_SIZE raises MemOutOfBounds of its kind and address (00_scope.md R10). -/
theorem checkAddr_beyond {kind : AccessKind} {a : Nat} {s : State} (h : s.params.memSize ≤ a) :
    checkAddr kind a s = .error (.raise (.memOutOfBounds kind a)) :=
  if_neg (Nat.not_lt.2 h)

/-- A fetch at or above MEM_SIZE stops before it reads a cell (40_execution_loop.md R76). -/
theorem fetch_beyond {s : State} (h : s.params.memSize ≤ s.pc) :
    fetch s = .error (.raise (.memOutOfBounds .fetch s.pc)) := by
  rw [fetch, memRead, checkAddr_beyond h, bind_error, bind_error]

/-- Settles O8: the fetch stops on the bounds of PC, and the fault is taken with `started` set. -/
theorem fetchBeyondMemoryFaults : Obligations.FetchBeyondMemoryFaults := by
  intro s hs hc hpc
  rw [step_running hs hc, fetch_beyond (s := s.markStarted) hpc]
  rfl

/-- Every byte in the list of 30_encoding.md R66 is a variant's opcode byte. -/
theorem exists_opcode_of_mem_legalOpcodes {op : Byte} (h : op ∈ legalOpcodes) : ∃ v : Variant, op = v.opcode := by
  have hlegal : ∀ o ∈ legalOpcodes, (dispatch o).isSome := by decide
  obtain ⟨v, hv⟩ := Option.isSome_iff_exists.1 (hlegal op h)
  exact ⟨v, opcode_of_dispatch hv⟩

/-- A fetch stops where the operand check after a variant's opcode byte stops. -/
theorem fetch_of_checkOperands_error {s : State} {v : Variant} {e : Stop} (hpc : s.pc < s.params.memSize)
    (hread : s.mem.read s.pc = some v.opcode) (h : checkOperands (operandCount v.opcode) s = .error e) :
    fetch s = .error e := by
  rw [fetch, memRead_ok_iff.2 ⟨hpc, hread⟩, bind_ok, dispatch_opcode]
  simp only [h, bind_error]

/-- A declared operand past the end of memory stops the check of its bounds. -/
theorem checkOperand_beyond {n k : Nat} {s : State} (hk : k ≤ n) (h : s.params.memSize ≤ s.pc + k) :
    checkOperand n k s = .error (.raise (.memOutOfBounds .operandFetch (s.pc + k))) := by
  rw [checkOperand, if_pos hk, checkAddr_beyond h]

/-- Operand A is checked first (60_exceptions.md R149 item 4). -/
theorem checkOperands_first_beyond {n : Nat} {s : State} (hn : 1 ≤ n) (h : s.params.memSize ≤ s.pc + 1) :
    checkOperands n s = .error (.raise (.memOutOfBounds .operandFetch (s.pc + 1))) := by
  rw [checkOperands, checkOperand_beyond hn h, bind_error]

/-- Operand B is checked where A is in bounds, whether or not A's cell holds a byte (60_exceptions.md R149 item 4). -/
theorem checkOperands_second_beyond {n : Nat} {s : State} (hn : 2 ≤ n) (hfirst : s.pc + 1 < s.params.memSize)
    (h : s.params.memSize ≤ s.pc + 2) :
    checkOperands n s = .error (.raise (.memOutOfBounds .operandFetch (s.pc + 2))) := by
  have hA : checkOperand n 1 s = .ok () := checkOperand_ok_iff.2 fun _ => hfirst
  rw [checkOperands, hA, bind_ok, checkOperand_beyond hn h]

/-- Settles O9: a legal byte is a variant's opcode, and the check of its operands' bounds stops before any operand cell
is read. -/
theorem operandBeyondMemoryFaults : Obligations.OperandBeyondMemoryFaults := by
  intro s op hs hc hpc hread hop
  obtain ⟨v, rfl⟩ := exists_opcode_of_mem_legalOpcodes hop
  have hfault : ∀ a, checkOperands (operandCount v.opcode) s.markStarted =
      .error (.raise (.memOutOfBounds .operandFetch a)) →
      step s = .next (s.markStarted.takeFault (.memOutOfBounds .operandFetch a)) := by
    intro a ha
    rw [step_running hs hc, fetch_of_checkOperands_error (s := s.markStarted) hpc hread ha]
    rfl
  exact ⟨fun hn h => hfault _ (checkOperands_first_beyond hn h),
    fun hn hfirst h => hfault _ (checkOperands_second_beyond hn hfirst h)⟩

/-! ## The fetched instruction is that of its own bytes (40_execution_loop.md R79, R87) -/

/-- An instruction is its opcode byte and its declared operand bytes long (30_encoding.md R55, R57). -/
theorem length_encode_assemble (v : Variant) (a b : Byte) :
    (encode (assemble v a b)).length = operandCount v.opcode + 1 := by
  cases v <;> rfl

/-- Operand A, if it is declared, is the byte after the opcode. -/
theorem encode_assemble_first (v : Variant) (a b : Byte) (h : 1 ≤ operandCount v.opcode) :
    (encode (assemble v a b))[1]? = some a := by
  simp [encode_assemble, operandBytes, h]

/-- Operand B, if it is declared, is the byte after operand A. -/
theorem encode_assemble_second (v : Variant) (a b : Byte) (h : 2 ≤ operandCount v.opcode) :
    (encode (assemble v a b))[2]? = some b := by
  simp [encode_assemble, operandBytes, h, Nat.le_of_succ_le h]

/-- An operand is fetched from its cell if it is declared, and is 0 if it is not. -/
theorem fetchOperand_of_read {n k : Nat} {s : State} {x : Byte} (h : k ≤ n → s.mem.read (s.pc + k) = some x) :
    fetchOperand n k s = .ok (if decide (k ≤ n) then x else 0) := by
  by_cases hk : k ≤ n
  · simpa [hk] using fetchOperand_ok_iff.2 ⟨h, fun hlt => absurd hk (Nat.not_le.2 hlt)⟩
  · simp [fetchOperand, hk]

/-- Where the cells from PC are in bounds and hold the encoding of an instruction, that instruction is fetched. -/
theorem fetch_of_encode {s : State} {i : Instr}
    (h : ∀ (k : Nat) (hk : k < (encode i).length), s.pc + k < s.params.memSize ∧
      s.mem.read (s.pc + k) = some (encode i)[k]) : fetch s = .ok i := by
  have hbyte : ∀ k x, (encode i)[k]? = some x → s.mem.read (s.pc + k) = some x := by
    intro k x hx
    obtain ⟨hk, rfl⟩ := List.getElem?_eq_some_iff.1 hx
    exact (h k hk).2
  obtain ⟨a, b, hi⟩ := exists_eq_assemble i
  generalize i.variant = v at hi
  subst hi
  obtain ⟨hlen, -⟩ := h (operandCount v.opcode) (length_encode_assemble v a b ▸ Nat.lt_succ_self _)
  rw [← assemble_declared v a b]
  exact fetch_of_reads (hbyte 0 _ (by rw [encode_assemble]; rfl)) hlen
    (fetchOperand_of_read fun hn => hbyte 1 a (encode_assemble_first v a b hn))
    (fetchOperand_of_read fun hn => hbyte 2 b (encode_assemble_second v a b hn))

/-- Settles O7: bytes that decode to an instruction and leave nothing are its encoding, which is what the fetch
finds. -/
theorem stepRunsDecodedInstruction : Obligations.StepRunsDecodedInstruction := by
  intro s bytes i hs hc hdecode hcells
  have hbytes : bytes = encode i := by
    rw [encodeInvertsDecode bytes [] i hdecode, List.append_nil]
  subst hbytes
  rw [step_running hs hc, fetch_of_encode (s := s.markStarted) hcells]
  rfl

/-- An operand is fetched alike from two memories that agree on its cell. -/
theorem fetchOperand_putMem {n k : Nat} {s : State} {m : Memory} {x : Byte} (h : fetchOperand n k s = .ok x)
    (hm : k ≤ n → m.read (s.pc + k) = s.mem.read (s.pc + k)) : fetchOperand n k (s.putMem m) = .ok x := by
  obtain ⟨hread, hzero⟩ := fetchOperand_ok_iff.1 h
  exact fetchOperand_ok_iff.2 ⟨fun hk => (hm hk).trans (hread hk), hzero⟩

/-- Settles O11: a fetch reads the opcode cell and the cells of the declared operands, which are the cells of the
instruction's encoding. -/
theorem undeclaredBytesAreNotRead : Obligations.UndeclaredBytesAreNotRead := by
  intro s m i h hm
  obtain ⟨v, a, b, rfl, hop, hlen, ha, hb⟩ := fetch_ok h
  have hagree : ∀ k, k ≤ operandCount v.opcode → m.read (s.pc + k) = s.mem.read (s.pc + k) := fun k hk =>
    hm k (length_encode_assemble v a b ▸ Nat.lt_succ_of_le hk)
  exact fetch_of_reads (s := s.putMem m) ((hagree 0 (Nat.zero_le _)).trans hop) hlen
    (fetchOperand_putMem ha (hagree 1)) (fetchOperand_putMem hb (hagree 2))

/-! ## When a step is taken, and what stops it (40_execution_loop.md R75) -/

/-- Settles O12: a step is enabled in status Running only. -/
theorem terminalStatusHasNoStep : Obligations.TerminalStatusHasNoStep :=
  fun _ hs => step_not_running hs

/-- HALT leaves Halted and the generic advance (40_execution_loop.md R85). -/
theorem exec_halt (s : State) : exec .halt s = .next (s.halt.setPc (s.pc + 1)) := by
  simp [exec_eq_commit, handler, Instr.variant, pcInc]

/-- Settles O36: the state HALT leaves is not Running, so it has no step. -/
theorem haltStopsTheCore : Obligations.HaltStopsTheCore :=
  ⟨rfl, fun s => ⟨exec_halt s, step_not_running (s := s.halt.setPc (s.pc + 1)) nofun⟩⟩

/-- No Load is admitted once a step has been taken (60_exceptions.md R152). -/
theorem load_of_started {s : State} (h : s.started = true) (addr value : Nat) : load addr value s = none := by
  simp [load, loadAdmitted, h]

/-- A step that samples no cancellation leaves `started` set, whether its instruction completes or anything faults. -/
theorem step_sets_started {s t : State} (hc : s.cancelRequested = false) (h : step s = .next t) :
    t.started = true := by
  obtain ⟨-, ⟨hreq, -⟩ | ⟨-, ⟨i, -, hexec⟩ | ⟨c, -, rfl⟩⟩⟩ := step_next h
  · exact absurd (hc.symm.trans hreq) nofun
  · exact exec_keeps_started hexec
  · exact s.markStarted.takeFault_started c

/-- A step that samples a cancellation does nothing else. -/
theorem step_cancels {s t : State} (hc : s.cancelRequested = true) (h : step s = .next t) : t = s.takeCancel := by
  obtain ⟨-, ⟨-, ht⟩ | ⟨hreq, -⟩⟩ := step_next h
  · exact ht
  · exact absurd (hc.symm.trans hreq) nofun

/-- Settles O14: without a request the step sets `started`, and a Load looks at it; with one the step is the
cancellation. -/
theorem stepSetsStarted : Obligations.StepSetsStarted := by
  intro s t h
  refine ⟨fun hc => ?_, fun hc => ?_⟩
  · have hstarted := step_sets_started hc h
    exact ⟨hstarted, load_of_started hstarted⟩
  · rw [step_cancels hc h, State.takeCancel_started]

/-- The outcome goes on, or stops on a cell of `s` that is in bounds and holds no byte (60_exceptions.md R147). -/
def NextOrUnwritten (s : State) (o : Host.Outcome State Fault Refusal) : Prop :=
  (∃ t, o = .next t) ∨ ∃ a, a < s.params.memSize ∧ s.mem.read a = none ∧ o = .fault (.readUnwritten a)

/-- What ends an instruction or a fetch is a fault of the hardware, which has a next state, or an unwritten cell. -/
theorem stopOutcome_nextOrUnwritten {s : State} {e : Stop}
    (h : ∀ a, e = .unwritten a → a < s.params.memSize ∧ s.mem.read a = none) :
    NextOrUnwritten s (stopOutcome s e) := by
  cases e with
  | raise c => exact .inl ⟨_, rfl⟩
  | unwritten a =>
    obtain ⟨hlt, hnone⟩ := h a rfl
    exact .inr ⟨a, hlt, hnone, rfl⟩

/-- Every instruction goes on or stops on an unwritten cell. -/
theorem exec_nextOrUnwritten (i : Instr) (s : State) : NextOrUnwritten s (exec i s) := by
  rw [exec_eq_commit]
  cases h : handler i s with
  | ok u => exact .inl ⟨_, rfl⟩
  | error e =>
    refine stopOutcome_nextOrUnwritten fun a ha => ?_
    subst ha
    exact handler_unwritten h

/-- A fetch stops with ReadUnwritten only at a cell in bounds that holds no byte. -/
theorem fetch_unwritten {s : State} {a : Nat} (h : fetch s = .error (.unwritten a)) :
    a < s.params.memSize ∧ s.mem.read a = none := by
  rcases fetch_error h with ⟨-, he⟩ | ⟨op, -, -, he⟩ | ⟨k, -, -, he⟩ | ⟨b, hlt, hnone, he⟩
  · cases he
  · cases he
  · cases he
  · cases he
    exact ⟨hlt, hnone⟩

/-- A step of a running core goes on or stops on an unwritten cell. -/
theorem step_nextOrUnwritten {s : State} (hs : s.status = .running) : NextOrUnwritten s (step s) := by
  cases hc : s.cancelRequested with
  | true => exact .inl ⟨s.takeCancel, by simp [step, hs, hc]⟩
  | false =>
    rw [step_running hs hc]
    cases hf : fetch s.markStarted with
    | ok i => exact exec_nextOrUnwritten i s.markStarted
    | error e =>
      refine stopOutcome_nextOrUnwritten (s := s.markStarted) fun a ha => ?_
      subst ha
      exact fetch_unwritten hf

/-- Settles O15: a core that is not running has no step, and a running one goes on or stops on an unwritten cell. -/
theorem stepStopsOnlyForTwoReasons : Obligations.StepStopsOnlyForTwoReasons := by
  intro s
  by_cases hs : s.status = .running
  · exact (step_nextOrUnwritten hs).imp_right .inr
  · exact .inr (.inl ⟨hs, step_not_running hs⟩)

/-! ## The next PC (40_execution_loop.md R81) -/

/-- Settles O26: the multiplexer selects the generic advance for `sets_pc` = 0, whatever the handler left. -/
theorem genericAdvanceOfNineOpcodes : Obligations.GenericAdvanceOfNineOpcodes := by
  refine ⟨fun i s t hset h hn => ?_, fun v => ?_⟩
  · obtain ⟨u, -, rfl⟩ := exec_completed h hn
    rw [State.setPc_pc, hset, selectNextPc_false, pcInc]
  · cases v <;> decide

/-- The generic advance over an instruction with one operand byte. -/
theorem pcInc_of_one_operand {v : Variant} {s : State} (h : operandCount v.opcode = 1) : pcInc v s = s.pc + 2 := by
  rw [pcInc, h]

/-- A jump that completes leaves a byte in PC (45_compare_branch.md R130). -/
theorem jumpTo_pc_le {a : Byte} {s u : State} (h : jumpTo a s = .ok u) : u.pc ≤ 255 := by
  obtain ⟨v, -, rfl⟩ := jumpTo_ok_iff.1 h
  exact Nat.le_of_lt_succ v.isLt

/-- A control transfer that completes leaves a byte as its target, and only a conditional jump the generic advance. -/
theorem handler_explicit_target {i : Instr} {s u : State} (h : handler i s = .ok u)
    (hset : setsPc i.variant.opcode = true) :
    u.pc ≤ 255 ∨ (u.pc = s.pc + 2 ∧ ∃ a, i = .jumpIfEqual a ∨ i = .jumpIfNotEqual a) := by
  have htarget := handler_target h hset
  cases i with
  | jumpIfEqual a =>
    exact htarget.imp_right fun hpc => ⟨hpc.trans (pcInc_of_one_operand operandCount_jumpIfEqual), a, .inl rfl⟩
  | jumpIfNotEqual a =>
    exact htarget.imp_right fun hpc => ⟨hpc.trans (pcInc_of_one_operand operandCount_jumpIfNotEqual), a, .inr rfl⟩
  | jump a => exact .inl (jumpTo_pc_le (s := s) h)
  | call a =>
    simp only [handler] at h
    split at h
    · cases h
    · obtain ⟨⟨slot, t⟩, -, h⟩ := bind_ok_iff.1 h
      obtain ⟨t', -, h⟩ := bind_ok_iff.1 h
      exact .inl (jumpTo_pc_le h)
  | ret =>
    obtain ⟨⟨sp, target⟩, -, h⟩ := bind_ok_iff.1 h
    cases h
    exact .inl (Nat.le_of_lt_succ target.isLt)
  | _ => simp [Instr.variant] at hset

/-- Settles O27: the multiplexer selects the handler's target for `sets_pc` = 1. -/
theorem explicitTargetsAreBytes : Obligations.ExplicitTargetsAreBytes := by
  intro i s t hset h hn
  obtain ⟨u, hu, rfl⟩ := exec_completed h hn
  rw [State.setPc_pc, hset, selectNextPc_true]
  exact handler_explicit_target hu hset

end Sys2Proof.Machine

namespace Sys2Proof.Machine

/-! ## What an instruction leaves, from what its handler answers (40_execution_loop.md R81, R82) -/

/-- A handler that raises leaves the state before it, with the fault recorded. -/
theorem exec_of_handler_raise {i : Instr} {s : State} {c : Cause} (h : handler i s = .error (.raise c)) :
    exec i s = .next (s.faultedWith c) := by
  rw [exec_eq_commit, h]
  rfl

/-- A handler that completes, of an instruction with `sets_pc` = 0, leaves its writes and the generic advance. -/
theorem exec_of_handler_ok {i : Instr} {s u : State} (hset : setsPc i.variant.opcode = false)
    (h : handler i s = .ok u) : exec i s = .next (u.setPc (pcInc i.variant s)) := by
  rw [exec_eq_commit, h, commit_ok, hset, selectNextPc_false]

/-! ## The register pair: a is checked before b (41_alu.md R92) -/

theorem readPair_good {a b : Byte} (s : State) (ha : a.toNat < 8) (hb : b.toNat < 8) :
    readPair a b s = .ok (s.reg[a.toNat], s.reg[b.toNat]) :=
  readPair_ok_iff.2 ⟨readReg_ok s ha, readReg_ok s hb⟩

theorem readPair_bad_first {a : Byte} (b : Byte) (s : State) (ha : 8 ≤ a.toNat) :
    readPair a b s = .error (.raise (.badRegister a)) := by
  rw [readPair, readReg_bad s ha, bind_error]

theorem readPair_bad_second {a b : Byte} (s : State) (ha : a.toNat < 8) (hb : 8 ≤ b.toNat) :
    readPair a b s = .error (.raise (.badRegister b)) := by
  rw [readPair, readReg_ok s ha, bind_ok, readReg_bad s hb, bind_error]

/-! ## The ALU: MUL and ADD always answer a value, MOD only for a divisor other than 0 (41_alu.md R90) -/

theorem alu_mul (va vb : Byte) : alu .mul va vb = .value (mul8 va vb) := rfl

theorem alu_add (va vb : Byte) : alu .add va vb = .value (add8 va vb) := rfl

theorem alu_mod_of_ne_zero (va : Byte) {vb : Byte} (hne : vb ≠ 0) : alu .mod va vb = .value (mod8 va vb) := if_neg hne

theorem alu_mod_of_eq_zero (va : Byte) {vb : Byte} (hz : vb = 0) : alu .mod va vb = .divideByZero := if_pos hz

/-! ## ALU operations, by what the register pair and the ALU answer (41_alu.md R90) -/

section
variable {tag : AluTag} {a b : Byte} {s : State}

theorem aluOperation_bad_first (ha : 8 ≤ a.toNat) : aluOperation tag a b s = .error (.raise (.badRegister a)) := by
  rw [aluOperation, readPair_bad_first b s ha, bind_error]

theorem aluOperation_bad_second (ha : a.toNat < 8) (hb : 8 ≤ b.toNat) :
    aluOperation tag a b s = .error (.raise (.badRegister b)) := by
  rw [aluOperation, readPair_bad_second s ha hb, bind_error]

/-- A value goes to the first register of the pair. -/
theorem aluOperation_value {v : Byte} (ha : a.toNat < 8) (hb : b.toNat < 8)
    (hv : alu tag s.reg[a.toNat] s.reg[b.toNat] = .value v) :
    aluOperation tag a b s = .ok (s.putReg (s.reg.set a.toNat v)) := by
  simp only [aluOperation, readPair_good s ha hb, bind_ok, hv, writeReg_ok v s ha]

/-- A zero divisor is named by its register, after both register checks (60_exceptions.md R149). -/
theorem aluOperation_divideByZero (ha : a.toNat < 8) (hb : b.toNat < 8)
    (hz : alu tag s.reg[a.toNat] s.reg[b.toNat] = .divideByZero) :
    aluOperation tag a b s = .error (.raise (.divideByZero b)) := by
  simp only [aluOperation, readPair_good s ha hb, bind_ok, hz, raise_eq]

end

/-! ## The instructions whose handler is an ALU operation -/

theorem handler_multiply (a b : Byte) (s : State) : handler (.multiply a b) s = aluOperation .mul a b s := rfl

theorem handler_add (a b : Byte) (s : State) : handler (.add a b) s = aluOperation .add a b s := rfl

theorem handler_modulo (a b : Byte) (s : State) : handler (.modulo a b) s = aluOperation .mod a b s := rfl

section
variable {i : Instr} {tag : AluTag} {a b : Byte} {s : State} (hi : handler i s = aluOperation tag a b s)
include hi

/-- Whatever the operator, the bad register named first faults. -/
theorem exec_alu_bad_register :
    (8 ≤ a.toNat → exec i s = .next (s.faultedWith (.badRegister a))) ∧
    (a.toNat < 8 → 8 ≤ b.toNat → exec i s = .next (s.faultedWith (.badRegister b))) :=
  ⟨fun ha => exec_of_handler_raise (hi.trans (aluOperation_bad_first ha)),
    fun ha hb => exec_of_handler_raise (hi.trans (aluOperation_bad_second ha hb))⟩

/-- The whole next state where the ALU answers a value. -/
theorem exec_alu_value {v : Byte} (hset : setsPc i.variant.opcode = false)
    (hcount : operandCount i.variant.opcode = 2) (ha : a.toNat < 8) (hb : b.toNat < 8)
    (hv : alu tag s.reg[a.toNat] s.reg[b.toNat] = .value v) :
    exec i s = .next { s with reg := s.reg.set a.toNat v, pc := s.pc + 3 } := by
  rw [exec_of_handler_ok hset (hi.trans (aluOperation_value ha hb hv)), pcInc, hcount]
  rfl

theorem exec_alu_divideByZero (ha : a.toNat < 8) (hb : b.toNat < 8)
    (hz : alu tag s.reg[a.toNat] s.reg[b.toNat] = .divideByZero) :
    exec i s = .next (s.faultedWith (.divideByZero b)) :=
  exec_of_handler_raise (hi.trans (aluOperation_divideByZero ha hb hz))

end

/-! ## MULTIPLY, ADD and MODULO (41_alu.md R92 to R94) -/

/-- Settles O39: the ALU answers a value for every MUL, so the only faults are those of the register pair. -/
theorem multiplyResult : Obligations.MultiplyResult := fun a b s =>
  ⟨rfl,
    fun ha hb => exec_alu_value (handler_multiply a b s) setsPc_multiply operandCount_multiply ha hb (alu_mul _ _),
    exec_alu_bad_register (handler_multiply a b s)⟩

/-- Settles O40: the ALU answers a value for every ADD, so the only faults are those of the register pair. -/
theorem addResult : Obligations.AddResult := fun a b s =>
  ⟨rfl,
    fun ha hb => exec_alu_value (handler_add a b s) setsPc_add operandCount_add ha hb (alu_add _ _),
    exec_alu_bad_register (handler_add a b s)⟩

/-- Settles O41: the divisor decides whether the ALU answers the remainder or DivideByZero, once both registers are
read. -/
theorem moduloResult : Obligations.ModuloResult := fun a b s =>
  ⟨rfl,
    fun ha hb hne => exec_alu_value (handler_modulo a b s) setsPc_modulo operandCount_modulo ha hb
      (alu_mod_of_ne_zero _ hne),
    fun ha hb hz => exec_alu_divideByZero (handler_modulo a b s) ha hb (alu_mod_of_eq_zero _ hz),
    exec_alu_bad_register (handler_modulo a b s)⟩

end Sys2Proof.Machine

namespace Sys2Proof

/-! ## Words written out from the encodings (30_encoding.md R63, R64) -/

/-- A word whose bytes begin with the encoding of an instruction decodes to it, whatever the bytes after it hold. -/
theorem decodeTableWord_of_tableBytes {nbits w : Nat} {i : Instr} (rest : List Byte)
    (h : tableBytes nbits w = encode i ++ rest) : decodeTableWord nbits w = some i := by
  rw [decodeTableWord, h, decodeInvertsEncode i rest]

/-- Settles O6: each word is its instruction's encoding, filled up to three bytes with zeros. -/
theorem sampleWordsDecode : Obligations.SampleWordsDecode :=
  ⟨decodeTableWord_of_tableBytes [0, 0] (by decide),
    decodeTableWord_of_tableBytes [] (by decide),
    decodeTableWord_of_tableBytes [0] (by decide),
    decodeTableWord_of_tableBytes [] (by decide),
    decodeTableWord_of_tableBytes [0] (by decide),
    decodeTableWord_of_tableBytes [0, 0] (by decide),
    decodeTableWord_of_tableBytes [0] (by decide)⟩

end Sys2Proof

namespace Sys2Proof.Machine

/-! ## LOAD-IMMEDIATE and PRINT-REGISTER (42_data_output.md R100, R101) -/

/-- A handler that completes, of an instruction with `sets_pc` = 0 and `n` operand bytes, leaves its writes and PC on the
next instruction (40_execution_loop.md R86). -/
theorem exec_of_handler_ok_advances (i : Instr) {s u : State} {n : Nat} (hset : setsPc i.variant.opcode = false)
    (hcount : operandCount i.variant.opcode = n) (h : handler i s = .ok u) :
    exec i s = .next (u.setPc (s.pc + 1 + n)) := by
  rw [exec_of_handler_ok hset h, pcInc, hcount]

theorem handler_loadImmediate (a imm : Byte) (s : State) : handler (.loadImmediate a imm) s = writeReg a imm s := rfl

theorem handler_printRegister_good {a : Byte} (s : State) (ha : a.toNat < 8) :
    handler (.printRegister a) s = .ok (s.emit s.reg[a.toNat]) := by
  rw [handler, readReg_ok s ha, bind_ok, pure_eq_ok]

theorem handler_printRegister_bad {a : Byte} (s : State) (ha : 8 ≤ a.toNat) :
    handler (.printRegister a) s = .error (.raise (.badRegister a)) := by
  rw [handler, readReg_bad s ha, bind_error]

/-- Settles O37: the handler is one register write, which the index admits or refuses. -/
theorem loadImmediateResult : Obligations.LoadImmediateResult := by
  intro a imm s
  have hwrite := handler_loadImmediate a imm s
  refine ⟨rfl, fun ha => ?_, fun ha => exec_of_handler_raise (hwrite.trans (writeReg_bad imm s ha))⟩
  rw [exec_of_handler_ok_advances (.loadImmediate a imm) setsPc_loadImmediate operandCount_loadImmediate
    (hwrite.trans (writeReg_ok imm s ha))]
  rfl

/-- Settles O38: the handler is one register read, which the index admits or refuses, and the emission of its value. -/
theorem printRegisterResult : Obligations.PrintRegisterResult := by
  intro a s
  refine ⟨rfl, fun ha => ?_, fun ha => exec_of_handler_raise (handler_printRegister_bad s ha)⟩
  rw [exec_of_handler_ok_advances (.printRegister a) setsPc_printRegister operandCount_printRegister
    (handler_printRegister_good s ha)]
  rfl

end Sys2Proof.Machine

namespace Sys2Proof.Machine

/-! ## The frame of the four stack instructions (43_stack.md, 44_call_return.md, 20_memory.md R42) -/

/-- The stack pointer is register 7 and no other. -/
theorem spIndex_toNat_ne {r : Fin 8} (hr : r ≠ 7) : Config.spIndex.toNat ≠ r :=
  fun e => hr (Fin.ext e.symm)

theorem eq_push_or_call {i : Instr} (hi : i.variant ∈ [.push, .call]) : ∃ a, i = .push a ∨ i = .call a := by
  cases i with
  | push a => exact ⟨a, .inl rfl⟩
  | call a => exact ⟨a, .inr rfl⟩
  | _ => simp [Instr.variant] at hi

theorem eq_pop_or_ret {i : Instr} (hi : i.variant ∈ [.pop, .ret]) : (∃ a, i = .pop a) ∨ i = .ret := by
  cases i with
  | pop a => exact .inl ⟨a, rfl⟩
  | ret => exact .inr rfl
  | _ => simp [Instr.variant] at hi

/-- PUSH and CALL write no register but R7 (10_state.md R22). -/
theorem writesReg_of_push_or_call {i : Instr} (hi : i.variant ∈ [.push, .call]) : writesReg i = [Config.spIndex] := by
  obtain ⟨a, rfl | rfl⟩ := eq_push_or_call hi
  · rfl
  · rfl

/-- POP and RETURN write no register but R7 and POP's destination (10_state.md R22). -/
theorem toNat_ne_of_writesReg_pop_or_ret {i : Instr} {r : Fin 8} (hi : i.variant ∈ [.pop, .ret]) (hr : r ≠ 7)
    (hdest : ∀ a, i = .pop a → a.toNat ≠ r) : ∀ x ∈ writesReg i, x.toNat ≠ r := by
  obtain ⟨a, rfl⟩ | rfl := eq_pop_or_ret hi
  · simpa [writesReg] using And.intro (hdest a rfl) (spIndex_toNat_ne hr)
  · simpa [writesReg] using spIndex_toNat_ne hr

/-- An instruction of a list of variants without COMPARE, PRINT-REGISTER and HALT leaves FL, the output, the status but
for a fault, and the fields no instruction writes. -/
theorem exec_frame_outside_reg_mem_pc {i : Instr} {s t : State} {l : List Variant} (hi : i.variant ∈ l)
    (hl : .compare ∉ l ∧ .printRegister ∉ l ∧ .halt ∉ l) (h : exec i s = .next t) :
    t.fl = s.fl ∧ t.out = s.out ∧ (t.status = s.status ∨ ∃ c, t = s.faultedWith c) ∧
      t.params = s.params ∧ t.started = s.started ∧ t.cancelRequested = s.cancelRequested := by
  have hstarted := exec_keeps_started h
  obtain ⟨hparams, hrequest⟩ := exec_keeps_params_and_request h
  obtain ⟨hcompare, hprint, hhalt⟩ := hl
  rcases exec_next h with ⟨u, hu, rfl⟩ | ⟨c, -, rfl⟩
  · obtain ⟨-, -, -, hfl, -, hstatus, -, -, hout, -⟩ := handler_completes hu
    refine ⟨hfl ?_, hout ?_, .inl (hstatus ?_), hparams, hstarted, hrequest⟩
    · rintro a b rfl
      exact hcompare hi
    · rintro a rfl
      exact hprint hi
    · rintro rfl
      exact hhalt hi
  · exact ⟨rfl, rfl, .inr ⟨c, rfl⟩, hparams, hstarted, hrequest⟩

/-- A PUSH or CALL that completes has reserved a slot and written one byte there. -/
theorem handler_stores_at_slot {i : Instr} {s u : State} (hi : i.variant ∈ [.push, .call])
    (h : handler i s = .ok u) :
    ∃ slot t v, reserveSlot s = .ok (slot, t) ∧ u.mem = s.mem.write slot.toNat v := by
  obtain ⟨a, rfl | rfl⟩ := eq_push_or_call hi
  · obtain ⟨⟨slot, t⟩, hslot, h⟩ := bind_ok_iff.1 h
    obtain ⟨v, -, h⟩ := bind_ok_iff.1 h
    obtain ⟨-, rfl⟩ := memWrite_ok_iff.1 h
    obtain ⟨-, -, -, rfl⟩ := reserveSlot_ok_iff.1 hslot
    exact ⟨slot, _, v, hslot, rfl⟩
  · simp only [handler] at h
    split at h
    · cases h
    · obtain ⟨⟨slot, t⟩, hslot, h⟩ := bind_ok_iff.1 h
      obtain ⟨t', hwrite, h⟩ := bind_ok_iff.1 h
      obtain ⟨-, rfl⟩ := memWrite_ok_iff.1 hwrite
      obtain ⟨-, -, rfl⟩ := jumpTo_ok_iff.1 h
      obtain ⟨-, -, -, rfl⟩ := reserveSlot_ok_iff.1 hslot
      exact ⟨slot, _, _, hslot, rfl⟩

/-- Every cell but the reserved slot reads as before a PUSH or CALL, which stores nothing where it faults. -/
theorem exec_store_read_of_ne_slot {i : Instr} {s t : State} {a : Nat} (hi : i.variant ∈ [.push, .call])
    (h : exec i s = .next t) (ha : ∀ slot u, reserveSlot s = .ok (slot, u) → a ≠ slot.toNat) :
    t.mem.read a = s.mem.read a := by
  rcases exec_next h with ⟨u, hu, rfl⟩ | ⟨c, -, rfl⟩
  · obtain ⟨slot, t, v, hslot, hmem⟩ := handler_stores_at_slot hi hu
    rw [State.setPc_mem, hmem, Memory.read_write, if_neg (ha slot t hslot)]
  · rfl

/-- Settles O34: the one store is at the reserved slot, R7 is the one register written, and neither instruction
compares, prints or halts. -/
theorem frameOfStoringInstructions : Obligations.FrameOfStoringInstructions := by
  intro i s t hi h
  refine ⟨fun a => exec_store_read_of_ne_slot hi h, fun r hr => registersWrittenAsListed i s t r h ?_,
    exec_frame_outside_reg_mem_pc hi (by decide) h⟩
  rw [writesReg_of_push_or_call hi]
  exact List.forall_mem_singleton.2 (spIndex_toNat_ne hr)

/-- Settles O35: neither instruction is one of those that write memory, the registers written are the listed ones, and
neither compares, prints or halts. -/
theorem frameOfPoppingInstructions : Obligations.FrameOfPoppingInstructions := by
  intro i s t hi h
  have hmem : t.mem = s.mem :=
    onlyPushAndCallWriteMemory i s t (fun a e => by simp [e, Instr.variant] at hi)
      (fun a e => by simp [e, Instr.variant] at hi) h
  exact ⟨fun a => congrArg (·.read a) hmem,
    fun r hr hdest => registersWrittenAsListed i s t r h (toNat_ne_of_writesReg_pop_or_ret hi hr hdest),
    exec_frame_outside_reg_mem_pc hi (by decide) h⟩

/-! ## PUSH: its faults in order (43_stack.md R106, R108) -/

theorem reserveSlot_overflow {s : State} (hzero : s.reg[7] = 0) :
    reserveSlot s = .error (.raise (.stackOverflow 0)) := by
  rw [reserveSlot_eq, if_pos hzero, hzero]

theorem reserveSlot_out_of_bounds {s : State} (hpos : 0 < s.reg[7].toNat)
    (hbeyond : s.params.memSize ≤ s.reg[7].toNat - 1) :
    reserveSlot s = .error (.raise (.memOutOfBounds .stackWrite (s.reg[7].toNat - 1))) := by
  have hne : s.reg[7] ≠ 0 := by
    bv_omega
  rw [reserveSlot_eq, if_neg hne, toNat_sub_one hpos, if_neg (Nat.not_lt.2 hbeyond)]

/-- PUSH raises what the reservation of its slot raises, before it looks at its register. -/
theorem handler_push_of_no_slot {a : Byte} {s : State} {e : Stop} (h : reserveSlot s = .error e) :
    handler (.push a) s = .error e := by
  rw [handler, h, bind_error]

theorem handler_push_bad_register {a : Byte} {s : State} (hpos : 0 < s.reg[7].toNat)
    (hroom : s.reg[7].toNat - 1 < s.params.memSize) (ha : 8 ≤ a.toNat) :
    handler (.push a) s = .error (.raise (.badRegister a)) := by
  simp only [handler, reserveSlot_of_room hpos hroom, bind_ok, readReg_bad _ ha, bind_error]

/-- Settles O42: the faults of the slot come before the fault of the register. -/
theorem pushResult : Obligations.PushResult := by
  intro a s
  refine ⟨rfl, fun ha hpos hroom => exec_push_completes ha hpos hroom, fun hzero => ?overflow,
    fun hpos hbeyond => ?outOfBounds, fun hpos hroom ha => ?badRegister⟩
  case overflow =>
    exact exec_of_handler_raise (handler_push_of_no_slot (reserveSlot_overflow (BitVec.eq_of_toNat_eq hzero)))
  case outOfBounds =>
    exact exec_of_handler_raise (handler_push_of_no_slot (reserveSlot_out_of_bounds hpos hbeyond))
  case badRegister => exact exec_of_handler_raise (handler_push_bad_register hpos hroom ha)

/-! ## The top of the stack (43_stack.md R107, R109) -/

theorem readTop_underflow {s : State} (hunder : s.params.spInit.toNat ≤ s.reg[7].toNat) :
    readTop s = .error (.raise (.stackUnderflow s.reg[7])) := by
  simp only [readTop, readReg_sp, bind_ok, if_pos hunder, raise_eq]

/-- Below SP_INIT, in bounds, an empty cell at SP is ReadUnwritten (60_exceptions.md R147). -/
theorem readTop_unwritten {s : State} (hlt : s.reg[7].toNat < s.params.spInit.toNat)
    (hroom : s.reg[7].toNat < s.params.memSize) (hnone : s.mem.read s.reg[7].toNat = none) :
    readTop s = .error (.unwritten s.reg[7].toNat) := by
  cases h : readTop s with
  | ok r =>
    obtain ⟨sp, v⟩ := r
    obtain ⟨rfl, -, -, hsome⟩ := readTop_ok_iff.1 h
    exact nomatch hnone.symm.trans hsome
  | error e =>
    rcases readTop_error h with ⟨hunder, -⟩ | ⟨-, ⟨hbeyond, -⟩ | ⟨-, -, rfl⟩⟩
    · omega
    · omega
    · rfl

/-! ## POP (43_stack.md R107, R109) -/

/-- POP stops as the read of the top of the stack stops. -/
theorem handler_pop_of_no_top {a : Byte} {s : State} {e : Stop} (h : readTop s = .error e) :
    handler (.pop a) s = .error e := by
  rw [handler, h, bind_error]

section
variable {a sp v : Byte} {s : State} (htop : readTop s = .ok (sp, v))
include htop

theorem handler_pop_bad_register (ha : 8 ≤ a.toNat) : handler (.pop a) s = .error (.raise (.badRegister a)) := by
  simp only [handler, htop, bind_ok, writeReg_bad _ _ ha, bind_error]

/-- POP into a register increments R7 as it is after the popped byte is written, or finds 255 there. -/
theorem handler_pop_of_top (ha : a.toNat < 8) :
    handler (.pop a) s =
      if (s.reg.set a.toNat v)[7] = 255 then .error (.raise (.stackUnderflow sp))
      else .ok (s.putReg ((s.reg.set a.toNat v).set 7 ((s.reg.set a.toNat v)[7] + 1))) := by
  simp only [handler, htop, bind_ok, writeReg_ok _ _ ha, readReg_sp, raise_eq, writeReg_sp]
  rfl

/-- POP into a register other than R7: R7 is SP, which is below SP_INIT and so is not 255. -/
theorem exec_pop_of_ne_sp (ha : a.toNat < 8) (h7 : a ≠ 7) :
    exec (.pop a) s = .next { s with reg := (s.reg.set a.toNat v).set 7 (sp + 1), pc := s.pc + 2 } := by
  obtain ⟨hsp, hlt, -⟩ := readTop_ok_iff.1 htop
  have hkept : (s.reg.set a.toNat v)[7] = sp :=
    (Vector.getElem_set_ne ha (by decide) fun e => h7 (BitVec.eq_of_toNat_eq e)).trans hsp.symm
  have hwrap : sp ≠ 255 := by
    bv_omega
  have hok := handler_pop_of_top htop ha
  rw [hkept, if_neg hwrap] at hok
  rw [exec_of_handler_ok_advances (.pop a) setsPc_pop operandCount_pop hok]
  rfl

/-- POP R7 increments the popped byte itself (43_stack.md R107, D15). -/
theorem exec_pop_sp (hwrap : v ≠ 255) :
    exec (.pop 7) s = .next { s with reg := s.reg.set 7 (v + 1), pc := s.pc + 2 } := by
  have hok : handler (.pop 7) s = .ok (s.putReg (s.reg.set 7 (v + 1))) := by
    have hkept : (s.reg.set 7 v)[7] ≠ 255 := by
      rwa [Vector.getElem_set_self]
    simpa using (handler_pop_of_top htop (a := 7) spIndex_lt).trans (if_neg hkept)
  rw [exec_of_handler_ok_advances (.pop 7) setsPc_pop operandCount_pop hok]
  rfl

/-- POP R7 of the byte 255 is an underflow (43_stack.md R109). -/
theorem exec_pop_sp_wraps (hwrap : v = 255) : exec (.pop 7) s = .next (s.faultedWith (.stackUnderflow sp)) := by
  refine exec_of_handler_raise ((handler_pop_of_top htop (a := 7) spIndex_lt).trans (if_pos ?_))
  simpa using hwrap

end

/-- Settles O43: what the read of the top answers decides between its two stops and the write of the popped byte, and
the destination decides what R7 is then. SP_INIT at most MEM_SIZE keeps the read in bounds. -/
theorem popResult : Obligations.PopResult := by
  intro a s hlegal
  obtain ⟨-, hle⟩ := hlegal
  refine ⟨rfl, fun hunder => ?underflow, fun hlt hnone => ?unwritten, fun v hlt hread => ?byte⟩
  case underflow => exact exec_of_handler_raise (handler_pop_of_no_top (readTop_underflow hunder))
  case unwritten =>
    rw [exec_eq_commit, handler_pop_of_no_top (readTop_unwritten hlt (hlt.trans_le hle) hnone), commit_error,
      stopOutcome_unwritten]
  case byte =>
    have htop := readTop_ok_iff.2 ⟨rfl, hlt, hlt.trans_le hle, hread⟩
    refine ⟨exec_pop_of_ne_sp htop, ?_, ?_, fun ha => exec_of_handler_raise (handler_pop_bad_register htop ha)⟩
    · rintro rfl hwrap
      exact exec_pop_sp htop hwrap
    · rintro rfl hwrap
      exact exec_pop_sp_wraps htop hwrap

/-! ## POP after PUSH (43_stack.md R110) -/

/-- The top of a stack whose lowest slot has just been written is the byte written there. -/
theorem readTop_after_push {s t : State} {v : Byte} (hpos : 0 < s.reg[7].toNat)
    (hle : s.reg[7].toNat ≤ s.params.spInit.toNat) (hroom : s.reg[7].toNat - 1 < s.params.memSize)
    (hparams : t.params = s.params) (hreg : t.reg = s.reg.set 7 (s.reg[7] - 1))
    (hmem : t.mem = s.mem.write (s.reg[7].toNat - 1) v) : readTop t = .ok (s.reg[7] - 1, v) := by
  have hslot := toNat_sub_one hpos
  refine readTop_ok_iff.2 ⟨?_, ?_, ?_, ?_⟩
  · simp only [hreg, Vector.getElem_set_self]
  · rw [hparams]
    omega
  · rwa [hparams, hslot]
  · rw [hmem, hslot, Memory.read_write, if_pos rfl]

/-- Moving R7 down, writing another register and moving R7 back writes that register only. -/
theorem set_between_sp_moves {b v : Byte} (reg : Vector Byte 8) (hb : b.toNat < 8) (h7 : b ≠ 7) :
    ((reg.set 7 (reg[7] - 1)).set b.toNat v).set 7 (reg[7] - 1 + 1) = reg.set b.toNat v := by
  have hne : b.toNat ≠ 7 := fun e => h7 (BitVec.eq_of_toNat_eq e)
  rw [Vector.set_comm _ _ hne, Vector.set_set, BitVec.sub_add_cancel, Vector.set_getElem_self]

section
variable {a b : Byte} {s : State} (hpos : 0 < s.reg[7].toNat) (hle : s.reg[7].toNat ≤ s.params.spInit.toNat)
  (hroom : s.reg[7].toNat - 1 < s.params.memSize)
include hpos hle hroom

/-- PUSH Ra then POP Rb copies x[a] to x[b] and leaves SP. -/
theorem push_then_pop_copies (ha : a.toNat < 8) (hb : b.toNat < 8) (ha7 : a ≠ 7) (hb7 : b ≠ 7) :
    ∃ t u, exec (.push a) s = .next t ∧ exec (.pop b) t = .next u ∧ u.reg = s.reg.set b.toNat s.reg[a.toNat] ∧
      u.pc = s.pc + 4 := by
  have hpush := exec_push_completes ha hpos hroom
  rw [if_neg ha7] at hpush
  refine ⟨_, _, hpush, exec_pop_of_ne_sp ?_ hb hb7, set_between_sp_moves s.reg hb hb7, rfl⟩
  exact readTop_after_push hpos hle hroom rfl rfl rfl

/-- PUSH R7 then POP R7 leaves the registers, and SP - 1 in the cell: PUSH R7 stores SP - 1, which is not 255
(43_stack.md R110, D15). -/
theorem push_sp_then_pop_sp :
    ∃ t u, exec (.push 7) s = .next t ∧ exec (.pop 7) t = .next u ∧ u.reg = s.reg ∧ u.pc = s.pc + 4 ∧
      u.mem.read (s.reg[7].toNat - 1) = some (s.reg[7] - 1) := by
  have hpush := exec_push_completes (a := 7) spIndex_lt hpos hroom
  rw [if_pos rfl] at hpush
  have hwrap : s.reg[7] - 1 ≠ 255 := by
    bv_omega
  refine ⟨_, _, hpush, exec_pop_sp (readTop_after_push hpos hle hroom rfl rfl rfl) hwrap, ?_, rfl, ?_⟩
  · simp only [Vector.set_set, BitVec.sub_add_cancel, Vector.set_getElem_self]
  · rw [Memory.read_write, if_pos rfl]

end

/-- Settles O50: for a register other than R7 the restoration is the copy of x[a] to itself, and R7 has its own case. -/
theorem pushThenPopRestores : Obligations.PushThenPopRestores := by
  intro a s ha hpos hle hroom
  refine ⟨?_, fun b hb ha7 hb7 => push_then_pop_copies hpos hle hroom ha hb ha7 hb7⟩
  by_cases ha7 : a = 7
  · subst ha7
    obtain ⟨t, u, hpush, hpop, hreg, hpc, hcell⟩ := push_sp_then_pop_sp hpos hle hroom
    exact ⟨t, u, hpush, hpop, hreg, hpc, fun _ => hcell⟩
  · obtain ⟨t, u, hpush, hpop, hreg, hpc⟩ := push_then_pop_copies hpos hle hroom ha ha ha7 ha7
    exact ⟨t, u, hpush, hpop, hreg.trans (Vector.set_getElem_self ha), hpc, fun e => absurd e ha7⟩

end Sys2Proof.Machine

namespace Sys2Proof.Machine

/-! ## CALL: its faults in order (44_call_return.md R115, R117) -/

/-- A jump through an index of 8 or more faults on that index, whatever the state. -/
theorem jumpTo_bad {a : Byte} (s : State) (ha : 8 ≤ a.toNat) : jumpTo a s = .error (.raise (.badRegister a)) := by
  rw [jumpTo, branchTarget, readReg_bad s ha, bind_error, bind_error]

/-- The return address is checked before the stack is looked at (44_call_return.md R117). -/
theorem handler_call_of_wide_return {a : Byte} {s : State} (hret : 255 < s.pc + 2) :
    handler (.call a) s = .error (.raise (.returnAddressOverflow (s.pc + 2))) := by
  simp only [handler, if_pos hret, raise_eq]

section
variable {a : Byte} {s : State} (hret : s.pc + 2 ≤ 255)
include hret

/-- With a return address that fits, CALL raises what the reservation of its slot raises, before it looks at its
register. -/
theorem handler_call_of_no_slot {e : Stop} (h : reserveSlot s = .error e) : handler (.call a) s = .error e := by
  simp only [handler, if_neg (Nat.not_lt.2 hret), h, bind_error]

/-- The target's register is looked at last, after the store (44_call_return.md R115). -/
theorem handler_call_bad_register (hpos : 0 < s.reg[7].toNat) (hroom : s.reg[7].toNat - 1 < s.params.memSize)
    (ha : 8 ≤ a.toNat) : handler (.call a) s = .error (.raise (.badRegister a)) := by
  simp only [handler, if_neg (Nat.not_lt.2 hret), reserveSlot_of_room hpos hroom, bind_ok, toNat_sub_one hpos,
    memWrite_putReg _ _ hroom, jumpTo_bad _ ha]

end

/-- Settles O44: the fault of the return address comes before the faults of the slot, and those before the fault of the
register. -/
theorem callResult : Obligations.CallResult := by
  intro a s
  refine ⟨rfl, fun ha hret hpos hroom => exec_call_completes ha hret hpos hroom, fun hret => ?wideReturn,
    fun hret hzero => ?overflow, fun hret hpos hbeyond => ?outOfBounds, fun hret hpos hroom ha => ?badRegister⟩
  case wideReturn => exact exec_of_handler_raise (handler_call_of_wide_return hret)
  case overflow =>
    exact exec_of_handler_raise (handler_call_of_no_slot hret (reserveSlot_overflow (BitVec.eq_of_toNat_eq hzero)))
  case outOfBounds =>
    exact exec_of_handler_raise (handler_call_of_no_slot hret (reserveSlot_out_of_bounds hpos hbeyond))
  case badRegister => exact exec_of_handler_raise (handler_call_bad_register hret hpos hroom ha)

/-! ## RETURN (44_call_return.md R116) -/

/-- A handler that stops on an unwritten cell ends the step there (60_exceptions.md R147). -/
theorem exec_of_handler_unwritten {i : Instr} {s : State} {a : Nat} (h : handler i s = .error (.unwritten a)) :
    exec i s = .fault (.readUnwritten a) := by
  rw [exec_eq_commit, h, commit_error, stopOutcome_unwritten]

/-- RETURN stops as the read of the top of the stack stops. -/
theorem handler_ret_of_no_top {s : State} {e : Stop} (h : readTop s = .error e) : handler .ret s = .error e := by
  rw [handler, h, bind_error]

/-- RETURN of a byte on top of the stack always completes: the write of R7 cannot fault. -/
theorem exec_ret_of_top {s : State} {sp v : Byte} (htop : readTop s = .ok (sp, v)) :
    exec .ret s = .next { s with reg := s.reg.set 7 (sp + 1), pc := v.toNat } := by
  have hok : handler .ret s = .ok ((s.putReg (s.reg.set 7 (sp + 1))).setPc v.toNat) := by
    simp only [handler, htop, bind_ok, writeReg_sp, pure_eq_ok]
  rw [exec_eq_commit, hok, commit_ok, Instr.variant, setsPc_ret, selectNextPc_true]
  rfl

/-- Settles O45: what the read of the top answers decides between its two stops and the jump. SP_INIT at most MEM_SIZE
keeps the read in bounds. -/
theorem returnResult : Obligations.ReturnResult := by
  refine ⟨rfl, fun s hlegal => ?_⟩
  obtain ⟨-, hle⟩ := hlegal
  refine ⟨fun hunder => ?underflow, fun hlt hnone => ?unwritten, fun v hlt hread => ?byte⟩
  case underflow => exact exec_of_handler_raise (handler_ret_of_no_top (readTop_underflow hunder))
  case unwritten =>
    exact exec_of_handler_unwritten (handler_ret_of_no_top (readTop_unwritten hlt (hlt.trans_le hle) hnone))
  case byte => exact exec_ret_of_top (readTop_ok_iff.2 ⟨rfl, hlt, hlt.trans_le hle, hread⟩)

/-! ## RETURN after CALL (44_call_return.md R118) -/

/-- The top of the stack is decided by the parameters, R7 and the cell R7 points at, whatever else differs. -/
theorem readTop_of_same_top {s t : State} {sp v : Byte} (hparams : t.params = s.params) (hsp : t.reg[7] = s.reg[7])
    (hcell : t.mem.read sp.toNat = s.mem.read sp.toNat) (htop : readTop s = .ok (sp, v)) : readTop t = .ok (sp, v) := by
  obtain ⟨heq, hlt, hroom, hread⟩ := readTop_ok_iff.1 htop
  exact readTop_ok_iff.2 ⟨heq.trans hsp.symm, hparams ▸ hlt, hparams ▸ hroom, hcell.trans hread⟩

/-- RETURN through a slot that holds the return address of a CALL at `pc` undoes the decrement of SP. -/
theorem exec_ret_of_return_address {w : State} {sp : Byte} {pc : Nat} (hret : pc + 2 ≤ 255)
    (htop : readTop w = .ok (sp - 1, BitVec.ofNat 8 (pc + 2))) :
    exec .ret w = .next { w with reg := w.reg.set 7 sp, pc := pc + 2 } := by
  rw [exec_ret_of_top htop, BitVec.sub_add_cancel, BitVec.toNat_ofNat, Nat.mod_eq_of_lt (Nat.lt_succ_of_le hret)]

/-- A CALL that completes leaves the return address on top of the stack, and of the registers moves SP only. -/
theorem exec_call_leaves_return_address {a : Byte} {s : State} (ha : a.toNat < 8) (hret : s.pc + 2 ≤ 255)
    (hpos : 0 < s.reg[7].toNat) (hle : s.reg[7].toNat ≤ s.params.spInit.toNat)
    (hroom : s.reg[7].toNat - 1 < s.params.memSize) :
    ∃ t, exec (.call a) s = .next t ∧ t.params = s.params ∧ t.reg = s.reg.set 7 (s.reg[7] - 1) ∧
      readTop t = .ok (s.reg[7] - 1, BitVec.ofNat 8 (s.pc + 2)) :=
  ⟨_, exec_call_completes ha hret hpos hroom, rfl, rfl, readTop_after_push hpos hle hroom rfl rfl rfl⟩

/-- Settles O51: the top of the stack after the CALL is the return address, and a balanced callee leaves that top. -/
theorem callThenReturnRestores : Obligations.CallThenReturnRestores := by
  intro a s ha hret hpos hle hroom
  obtain ⟨t, hcall, hparams, hreg, htop⟩ := exec_call_leaves_return_address ha hret hpos hle hroom
  refine ⟨t, hcall, ⟨_, exec_ret_of_return_address hret htop, rfl, ?atOnce⟩, fun w hw hsp hcell => ?balanced⟩
  case atOnce =>
    show t.reg.set 7 s.reg[7] = s.reg
    rw [hreg, Vector.set_set, Vector.set_getElem_self]
  case balanced =>
    rw [← toNat_sub_one hpos] at hcell
    have htop' := readTop_of_same_top (hw.trans hparams.symm) hsp hcell htop
    exact ⟨_, exec_ret_of_return_address hret htop', rfl, Vector.getElem_set_self _⟩

end Sys2Proof.Machine

namespace Sys2Proof.Machine

/-! ## COMPARE (45_compare_branch.md R125, 41_alu.md R95) -/

/-- The compare function answers EQ exactly for equal values. -/
theorem compareFlag_eq_iff {va vb : Byte} : compareFlag va vb = .eq ↔ va = vb := by
  rw [compareFlag]
  split_ifs with heq hlt
  · exact iff_of_true rfl heq
  · exact iff_of_false nofun heq
  · exact iff_of_false nofun heq

/-- The compare function never answers NONE. -/
theorem compareFlag_ne_none (va vb : Byte) : compareFlag va vb ≠ .none := by
  rw [compareFlag]
  split_ifs <;> nofun

/-- The compare function looks at the unsigned values only. -/
theorem compareFlag_eq_toNat (va vb : Byte) :
    compareFlag va vb = if va.toNat = vb.toNat then .eq else if va.toNat < vb.toNat then .lt else .gt := by
  simp only [compareFlag, BitVec.toNat_inj]

/-- The whole next state of a COMPARE of two registers. -/
theorem exec_compare_completes {a b : Byte} (s : State) (ha : a.toNat < 8) (hb : b.toNat < 8) :
    exec (.compare a b) s =
      .next { s with fl := compareFlag s.reg[a.toNat] s.reg[b.toNat], pc := s.pc + 3 } := by
  have hok : handler (.compare a b) s = .ok (s.setFlag (compareFlag s.reg[a.toNat] s.reg[b.toNat])) := by
    rw [handler_compare, readPair_good s ha hb]
    rfl
  rw [exec_of_handler_ok_advances (.compare a b) setsPc_compare operandCount_compare hok]
  rfl

/-- Settles O46: COMPARE is an ALU operation, so its faults are those of the register pair. -/
theorem compareResult : Obligations.CompareResult := by
  intro a b s
  refine ⟨rfl, fun ha hb => ?_, exec_alu_bad_register (i := .compare a b) (tag := .cmp) rfl⟩
  rw [exec_compare_completes s ha hb, compareFlag_eq_toNat]

/-! ## FL never goes back to NONE (45_compare_branch.md R125, corner cases) -/

/-- An instruction keeps FL, or leaves in it what the compare function answers. -/
theorem exec_fl {i : Instr} {s t : State} (h : exec i s = .next t) :
    t.fl = s.fl ∨ ∃ va vb, t.fl = compareFlag va vb := by
  rcases exec_next h with ⟨u, hu, rfl⟩ | ⟨c, -, rfl⟩
  · by_cases hcmp : ∃ a b, i = .compare a b
    · obtain ⟨a, b, rfl⟩ := hcmp
      obtain ⟨va, vb, -, -, ⟨v, hv, -⟩ | ⟨f, hf, rfl⟩⟩ := aluOperation_ok (tag := .cmp) hu
      · cases hv
      · cases hf
        exact .inr ⟨va, vb, rfl⟩
    · obtain ⟨-, -, -, hfl, -⟩ := handler_completes hu
      exact .inl (hfl fun a b e => hcmp ⟨a, b, e⟩)
  · exact .inl (s.takeFault_fl c)

/-- Settles O23: only the compare function's answer replaces FL, and it is never NONE. -/
theorem flagsNeverBecomeNoneAgain : Obligations.FlagsNeverBecomeNoneAgain := by
  intro s t hfl h
  obtain ⟨-, ⟨-, rfl⟩ | ⟨-, ⟨i, -, hexec⟩ | ⟨c, -, rfl⟩⟩⟩ := step_next h
  · exact hfl
  · rcases exec_fl hexec with hkept | ⟨va, vb, hset⟩
    · exact hkept ▸ hfl
    · exact hset ▸ compareFlag_ne_none va vb
  · exact hfl

/-! ## A jump, taken and not taken (45_compare_branch.md R126 to R128) -/

/-- A handler that completes, of an instruction with `sets_pc` = 1, leaves its whole state, its target in PC
(40_execution_loop.md R81). -/
theorem exec_of_handler_ok_jumps {i : Instr} {s u : State} (hset : setsPc i.variant.opcode = true)
    (h : handler i s = .ok u) : exec i s = .next u := by
  rw [exec_eq_commit, h, commit_ok, hset, selectNextPc_true]
  rfl

theorem jumpTo_good {a : Byte} (s : State) (ha : a.toNat < 8) :
    jumpTo a s = .ok (s.setPc s.reg[a.toNat].toNat) :=
  jumpTo_ok_iff.2 ⟨_, readReg_ok s ha, rfl⟩

section
variable {i : Instr} {a : Byte} {s : State}

/-- An instruction whose handler jumps through x[a] changes PC only. -/
theorem exec_jump_taken (hjump : handler i s = jumpTo a s) (hset : setsPc i.variant.opcode = true)
    (ha : a.toNat < 8) : exec i s = .next { s with pc := s.reg[a.toNat].toNat } :=
  exec_of_handler_ok_jumps hset (hjump.trans (jumpTo_good s ha))

theorem exec_jump_bad_register (hjump : handler i s = jumpTo a s) (ha : 8 ≤ a.toNat) :
    exec i s = .next (s.faultedWith (.badRegister a)) :=
  exec_of_handler_raise (hjump.trans (jumpTo_bad s ha))

/-- A conditional jump that is not taken goes on to the next instruction and does not look at its index. -/
theorem exec_jump_not_taken (hskip : handler i s = jumpWhen false i.variant a s)
    (hset : setsPc i.variant.opcode = true) (hcount : operandCount i.variant.opcode = 1) :
    exec i s = .next { s with pc := s.pc + 2 } := by
  rw [exec_of_handler_ok_jumps hset hskip, pcInc_of_one_operand hcount]
  rfl

end

theorem handler_jump (a : Byte) (s : State) : handler (.jump a) s = jumpTo a s := rfl

/-- With FL = EQ, JUMP-IF-EQUAL is a JUMP. -/
theorem handler_jumpIfEqual_of_eq {s : State} (a : Byte) (hfl : s.fl = .eq) :
    handler (.jumpIfEqual a) s = jumpTo a s := by
  rw [handler, hfl]
  rfl

theorem handler_jumpIfEqual_of_ne {s : State} (a : Byte) (hfl : s.fl ≠ .eq) :
    handler (.jumpIfEqual a) s = jumpWhen false .jumpIfEqual a s := by
  rw [handler, flagIsEqual_of_ne hfl]

/-- With FL other than EQ, JUMP-IF-NOT-EQUAL is a JUMP. -/
theorem handler_jumpIfNotEqual_of_ne {s : State} (a : Byte) (hfl : s.fl ≠ .eq) :
    handler (.jumpIfNotEqual a) s = jumpTo a s := by
  rw [handler, flagIsEqual_of_ne hfl]
  rfl

theorem handler_jumpIfNotEqual_of_eq {s : State} (a : Byte) (hfl : s.fl = .eq) :
    handler (.jumpIfNotEqual a) s = jumpWhen false .jumpIfNotEqual a s := by
  rw [handler, hfl]
  rfl

/-- Settles O47: the handler is the jump itself, which the index admits or refuses. -/
theorem jumpResult : Obligations.JumpResult := fun a s =>
  ⟨rfl, exec_jump_taken (handler_jump a s) setsPc_jump, exec_jump_bad_register (handler_jump a s)⟩

/-- Settles O48: FL decides between the jump and the generic advance, and only the jump looks at the index. -/
theorem jumpIfEqualResult : Obligations.JumpIfEqualResult := by
  intro a s
  refine ⟨rfl, fun ha hfl => ?taken, fun hfl => ?notTaken, fun hfl ha => ?badRegister⟩
  case taken => exact exec_jump_taken (handler_jumpIfEqual_of_eq a hfl) setsPc_jumpIfEqual ha
  case notTaken =>
    exact exec_jump_not_taken (handler_jumpIfEqual_of_ne a hfl) setsPc_jumpIfEqual operandCount_jumpIfEqual
  case badRegister => exact exec_jump_bad_register (handler_jumpIfEqual_of_eq a hfl) ha

/-- Settles O49: as for JUMP-IF-EQUAL, with the jump taken for every FL other than EQ. -/
theorem jumpIfNotEqualResult : Obligations.JumpIfNotEqualResult := by
  intro a s
  refine ⟨rfl, fun ha hfl => ?taken, fun hfl => ?notTaken, fun hfl ha => ?badRegister⟩
  case taken => exact exec_jump_taken (handler_jumpIfNotEqual_of_ne a hfl) setsPc_jumpIfNotEqual ha
  case notTaken =>
    exact exec_jump_not_taken (handler_jumpIfNotEqual_of_eq a hfl) setsPc_jumpIfNotEqual operandCount_jumpIfNotEqual
  case badRegister => exact exec_jump_bad_register (handler_jumpIfNotEqual_of_ne a hfl) ha

/-! ## The conditional jumps are complementary (45_compare_branch.md R129) -/

/-- Of the two conditional jumps FL = EQ selects the one that is taken. -/
theorem conditional_jumps_by_fl {c : Byte} (s : State) (hc : c.toNat < 8) :
    ∃ u w, exec (.jumpIfEqual c) s = .next u ∧ exec (.jumpIfNotEqual c) s = .next w ∧
      u.pc = (if s.fl = .eq then s.reg[c.toNat].toNat else s.pc + 2) ∧
      w.pc = (if s.fl = .eq then s.pc + 2 else s.reg[c.toNat].toNat) := by
  obtain ⟨-, hjeqTaken, hjeqSkipped, -⟩ := jumpIfEqualResult c s
  obtain ⟨-, hjneTaken, hjneSkipped, -⟩ := jumpIfNotEqualResult c s
  by_cases hfl : s.fl = .eq
  · exact ⟨_, _, hjeqTaken hc hfl, hjneSkipped hfl, (if_pos hfl).symm, (if_pos hfl).symm⟩
  · exact ⟨_, _, hjeqSkipped hfl, hjneTaken hc hfl, (if_neg hfl).symm, (if_neg hfl).symm⟩

/-- Settles O52: after a COMPARE, FL is EQ exactly for equal registers, and FL selects the jump that is taken. -/
theorem conditionalJumpsAreComplementary : Obligations.ConditionalJumpsAreComplementary := by
  refine ⟨fun a b c s ha hb hc => ?afterCompare, fun c s hc => ?exactlyOne⟩
  case afterCompare =>
    obtain ⟨u, w, hjeq, hjne, hu, hw⟩ := conditional_jumps_by_fl
      { s with fl := compareFlag s.reg[a.toNat] s.reg[b.toNat], pc := s.pc + 3 } hc
    simp only [compareFlag_eq_iff] at hu hw
    exact ⟨_, u, w, exec_compare_completes s ha hb, hjeq, hjne, hu, hw⟩
  case exactlyOne =>
    obtain ⟨u, w, hjeq, hjne, hu, hw⟩ := conditional_jumps_by_fl s hc
    refine ⟨u, w, hjeq, hjne, ?_⟩
    by_cases hfl : s.fl = .eq
    · exact .inl ⟨hu.trans (if_pos hfl), hw.trans (if_pos hfl)⟩
    · exact .inr ⟨hu.trans (if_neg hfl), hw.trans (if_neg hfl)⟩

end Sys2Proof.Machine

namespace Sys2Proof.Machine

/-! ## Cancellation (60_exceptions.md R154) -/

/-- A running core with a cancellation requested takes it, and does nothing else. -/
theorem step_requested {s : State} (hs : s.status = .running) (hc : s.cancelRequested = true) :
    step s = .next s.takeCancel := by
  simp [step, hs, hc]

/-- Settles O13: the request is sampled before the fetch, whether it was set before or is set now. -/
theorem cancellationIsSampledBeforeTheFetch : Obligations.CancellationIsSampledBeforeTheFetch :=
  fun s => ⟨step_requested, fun hs => step_requested (s := requestCancel s) hs rfl, rfl⟩

/-! ## A fetch from an unwritten cell (60_exceptions.md R147, R149) -/

/-- Reading a cell that holds no byte is ReadUnwritten of its address. -/
theorem readCell_unwritten {a : Nat} {s : State} (h : s.mem.read a = none) : readCell a s = .error (.unwritten a) := by
  rw [readCell, h]

/-- A declared operand in an unwritten cell is not fetched. -/
theorem fetchOperand_unwritten {n k : Nat} {s : State} (hk : k ≤ n) (h : s.mem.read (s.pc + k) = none) :
    fetchOperand n k s = .error (.unwritten (s.pc + k)) := by
  rw [fetchOperand, if_pos hk, readCell_unwritten h]

/-- An unwritten opcode cell in bounds stops the fetch. -/
theorem fetch_opcode_unwritten {s : State} (hpc : s.pc < s.params.memSize) (h : s.mem.read s.pc = none) :
    fetch s = .error (.unwritten s.pc) := by
  rw [fetch, memRead, checkAddr_ok_iff (u := ()) |>.2 hpc, bind_ok, readCell_unwritten h, bind_error]

/-- With the whole instruction in bounds, what is left of a fetch is to read operand A and then operand B. -/
theorem fetch_eq_operands {s : State} {v : Variant} (hop : s.mem.read s.pc = some v.opcode)
    (hlen : s.pc + operandCount v.opcode < s.params.memSize) :
    fetch s = fetchOperand (operandCount v.opcode) 1 s >>= fun a =>
      fetchOperand (operandCount v.opcode) 2 s >>= fun b => .ok (assemble v a b) := by
  have hbounds : checkOperands (operandCount v.opcode) s = .ok () := checkOperands_ok_iff.2 ⟨by omega, by omega⟩
  rw [fetch, memRead_ok_iff.2 ⟨by omega, hop⟩, bind_ok, dispatch_opcode]
  simp only [hbounds, bind_ok, pure_eq_ok]

/-- A fetch that meets an unwritten cell stops the step. -/
theorem step_of_fetch_unwritten {s : State} {a : Nat} (hs : s.status = .running) (hc : s.cancelRequested = false)
    (h : fetch s.markStarted = .error (.unwritten a)) : step s = .fault (.readUnwritten a) := by
  rw [step_running hs hc, h]
  rfl

/-- Settles O10: a legal byte is a variant's opcode, and with its operands in bounds the fetch stops at the first cell
that holds no byte. -/
theorem fetchOfUnwrittenCellStops : Obligations.FetchOfUnwrittenCellStops := by
  intro s hs hc
  refine ⟨fun hpc hnone => ?opcode, fun op hread hop hlen => ?operands⟩
  case opcode => exact step_of_fetch_unwritten hs hc (fetch_opcode_unwritten (s := s.markStarted) hpc hnone)
  case operands =>
    obtain ⟨v, rfl⟩ := exists_opcode_of_mem_legalOpcodes hop
    have hfetch := fetch_eq_operands (s := s.markStarted) hread hlen
    refine ⟨fun hn hnone => ?first, fun hn hsome hnone => ?second⟩
    case first =>
      rw [fetchOperand_unwritten (s := s.markStarted) hn hnone, bind_error] at hfetch
      exact step_of_fetch_unwritten hs hc hfetch
    case second =>
      obtain ⟨x, hx⟩ := Option.ne_none_iff_exists'.1 hsome
      rw [fetchOperand_of_read (s := s.markStarted) fun _ => hx, bind_ok,
        fetchOperand_unwritten (s := s.markStarted) hn hnone, bind_error] at hfetch
      exact step_of_fetch_unwritten hs hc hfetch

/-! ## Completing and faulting exclude each other (60_exceptions.md R141, R148) -/

/-- An instruction that completes from Running leaves a status that is no fault. -/
theorem handler_notFaulted {i : Instr} {s u : State} (hs : s.status = .running) (h : handler i s = .ok u) :
    u.notFaulted := by
  intro c p hfault
  rw [handler_status hs h] at hfault
  split at hfault <;> cases hfault

/-- Settles O24: a handler that completes leaves no fault, and PRINT-REGISTER's alone emits; a fault discards what was
written. -/
theorem outputGrowsByOneEntryPerPrint : Obligations.OutputGrowsByOneEntryPerPrint := by
  intro i s t hs h
  rcases exec_next h with ⟨u, hu, rfl⟩ | ⟨c, -, rfl⟩
  · obtain ⟨-, -, -, -, -, -, -, -, hkeeps, hprints⟩ := handler_completes hu
    have hcompleted : u.notFaulted := handler_notFaulted hs hu
    exact ⟨fun a hi _ => hprints a hi, fun hor => hkeeps (hor.resolve_right (not_not_intro hcompleted))⟩
  · exact ⟨fun _ _ hn => absurd rfl (hn c s.pc), fun _ => s.takeFault_out c⟩

/-- An instruction that leaves a fault from Running has taken it, and nothing else of it is left. -/
theorem exec_faulted {i : Instr} {s t : State} {c : Cause} {p : Nat} (hs : s.status = .running)
    (h : exec i s = .next t) (hfault : t.status = .faulted c p) : t = s.takeFault c := by
  rcases exec_next h with ⟨u, hu, rfl⟩ | ⟨d, -, rfl⟩
  · exact absurd hfault (handler_notFaulted hs hu c p)
  · cases hfault
    rfl

/-- A step that leaves a fault has taken it, and set `started`, and nothing else of it is left. -/
theorem step_faulted {s t : State} {c : Cause} {p : Nat} (h : step s = .next t) (hfault : t.status = .faulted c p) :
    t = s.markStarted.takeFault c := by
  obtain ⟨hs, ⟨-, rfl⟩ | ⟨-, ⟨i, -, hexec⟩ | ⟨d, -, rfl⟩⟩⟩ := step_next h
  · cases hfault
  · exact exec_faulted (s := s.markStarted) hs hexec hfault
  · cases hfault
    rfl

/-- Settles O25: the state after the fault is known whole, and its status is not Running. -/
theorem faultsArePreciseAndTerminal : Obligations.FaultsArePreciseAndTerminal := by
  intro s t c p _ h hfault
  obtain rfl := step_faulted h hfault
  exact ⟨rfl, step_not_running nofun⟩

/-! ## Load (60_exceptions.md R152) -/

theorem loadAdmitted_iff {addr value : Nat} {s : State} :
    loadAdmitted addr value s = true ↔
      s.status = .running ∧ s.started = false ∧ addr < s.params.memSize ∧ value ≤ 255 := by
  simp [loadAdmitted, and_assoc]

/-- Settles O55: a Load writes its one cell where it is admitted, and has no next state where it is not. -/
theorem loadIsAdmittedExactly : Obligations.LoadIsAdmittedExactly := by
  intro addr value s t
  by_cases h : loadAdmitted addr value s = true
  · obtain ⟨hs, hstarted, haddr, hvalue⟩ := loadAdmitted_iff.1 h
    rw [load, if_pos h, Option.some.injEq, eq_comm]
    exact ⟨fun ht => ⟨hs, hstarted, haddr, hvalue, ht⟩, fun ⟨_, _, _, _, ht⟩ => ht⟩
  · rw [load, if_neg h]
    exact ⟨nofun, fun ⟨hs, hstarted, haddr, hvalue, _⟩ => absurd (loadAdmitted_iff.2 ⟨hs, hstarted, haddr, hvalue⟩) h⟩

/-- A Load before the first step, in bounds and of a byte, writes its cell. -/
theorem load_admitted {addr value : Nat} {s : State} (hs : s.status = .running) (hstarted : s.started = false)
    (haddr : addr < s.params.memSize) (hvalue : value ≤ 255) :
    load addr value s = some (s.putMem (s.mem.write addr (BitVec.ofNat 8 value))) :=
  (loadIsAdmittedExactly addr value s _).2 ⟨hs, hstarted, haddr, hvalue, rfl⟩

/-- No Load is admitted at or above MEM_SIZE. -/
theorem load_beyond {addr : Nat} {s : State} (haddr : s.params.memSize ≤ addr) (value : Nat) :
    load addr value s = none := by
  refine Option.eq_none_iff_forall_ne_some.2 fun t h => ?_
  obtain ⟨-, -, hlt, -⟩ := (loadIsAdmittedExactly addr value s t).1 h
  omega

/-! ## What the host does keeps the invariant (60_exceptions.md R162) -/

/-- Running is no fault. -/
theorem notFaulted_of_running {s : State} (hs : s.status = .running) : s.notFaulted := by
  intro c p hfault
  cases hs.symm.trans hfault

/-- An admitted Load is a write in bounds to the memory of a running core. -/
theorem load_keeps_inv {addr value : Nat} {s t : State} (hinv : s.Inv) (h : load addr value s = some t) : t.Inv := by
  obtain ⟨hlegal, hmem, hpc, -, -⟩ := hinv
  obtain ⟨hs, -, haddr, -, rfl⟩ := (loadIsAdmittedExactly addr value s t).1 h
  exact ⟨hlegal, memoryInv_write haddr rfl rfl hmem, hpc,
    faultRecordInv_of_notFaulted (notFaulted_of_running hs),
    startedInv_of_not_stopped (fun hhalt => nomatch hs.symm.trans hhalt) (notFaulted_of_running hs)⟩

/-- An image is a sequence of Loads: what every Load keeps, an image keeps. -/
theorem loadImageFrom_keeps {P : State → Prop} (hload : ∀ addr value s t, P s → load addr value s = some t → P t)
    (addr : Nat) (image : List Nat) {s : State} (hP : P s) : P (loadImageFrom addr image s).1 := by
  induction image generalizing addr s with
  | nil => exact hP
  | cons v rest ih =>
    rw [loadImageFrom]
    cases h : load addr v s with
    | some t => exact ih (addr + 1) (hload addr v s t hP h)
    | none => exact hP

/-- No clause of the invariant reads the request. -/
theorem requestCancel_keeps_inv {s : State} (hinv : s.Inv) : (requestCancel s).Inv := hinv

/-- Settles O20: Loads and images write the memory in bounds, the request is no part of the invariant, and a reset
keeps the legal parameters. -/
theorem hostKeepsInvariant : Obligations.HostKeepsInvariant := by
  intro s hinv
  have ⟨hlegal, _⟩ := hinv
  exact ⟨fun _ _ _ => load_keeps_inv hinv,
    fun image => loadImageFrom_keeps (fun _ _ _ _ => load_keeps_inv) 0 image hinv,
    requestCancel_keeps_inv hinv, resetWith_inv hlegal⟩

/-! ## An image of bytes (60_exceptions.md R152, 70_reset_and_hazards.md R168)

The Loads of an image write what `placeBytes` stores, and the first Load at or above MEM_SIZE is refused. -/

/-- Nothing is stored at or above MEM_SIZE. -/
theorem placeBytes_beyond {a : Nat} {s : State} (h : s.params.memSize ≤ a) (bytes : List Byte) :
    placeBytes a bytes s = s := by
  induction bytes generalizing a with
  | nil => rfl
  | cons v rest ih => rw [placeBytes, if_neg (Nat.not_lt.2 h), ih (Nat.le_succ_of_le h)]

/-- A cell below `a`, after the last byte, or at or above MEM_SIZE is left as it was. -/
theorem placeBytes_read_outside {a k : Nat} {bytes : List Byte} {s : State}
    (h : k < a ∨ a + bytes.length ≤ k ∨ s.params.memSize ≤ k) :
    (placeBytes a bytes s).mem.read k = s.mem.read k := by
  induction bytes generalizing a s with
  | nil => rfl
  | cons v rest ih =>
    rw [List.length_cons] at h
    rw [placeBytes]
    by_cases ha : a < s.params.memSize
    · have hne : k ≠ a := by omega
      rw [if_pos ha, ih (by rw [State.putMem_params]; omega), State.putMem_mem, Memory.read_write, if_neg hne]
    · rw [if_neg ha, ih (by omega)]

/-- The cell `k` places after `a`, in bounds, holds byte `k` of those stored. -/
theorem placeBytes_read_inside {a k : Nat} {bytes : List Byte} {s : State} (hk : k < bytes.length)
    (hbound : a + k < s.params.memSize) : (placeBytes a bytes s).mem.read (a + k) = some bytes[k] := by
  induction bytes generalizing a k s with
  | nil => exact absurd hk (Nat.not_lt_zero k)
  | cons v rest ih =>
    have ha : a < s.params.memSize := by omega
    rw [placeBytes, if_pos ha]
    cases k with
    | zero =>
      refine (placeBytes_read_outside (.inl (Nat.lt_add_one a))).trans ?_
      rw [State.putMem_mem, Memory.read_write]
      exact if_pos rfl
    | succ k =>
      have haddr : a + (k + 1) = a + 1 + k := by omega
      rw [haddr] at hbound ⊢
      exact ih (s := s.putMem (s.mem.write a v)) (Nat.lt_of_succ_lt_succ hk) hbound

/-- The Loads of an image of bytes before the first step write what `placeBytes` stores. -/
theorem loadImageFrom_state {addr : Nat} {image : List Nat} {s : State} (hs : s.status = .running)
    (hstarted : s.started = false) (hbytes : ∀ v ∈ image, v ≤ 255) :
    (loadImageFrom addr image s).1 = placeBytes addr (image.map (BitVec.ofNat 8)) s := by
  induction image generalizing addr s with
  | nil => rfl
  | cons v rest ih =>
    obtain ⟨hv, hrest⟩ := List.forall_mem_cons.1 hbytes
    by_cases haddr : addr < s.params.memSize
    · rw [loadImageFrom, load_admitted hs hstarted haddr hv, List.map_cons, placeBytes, if_pos haddr]
      exact ih hs hstarted hrest
    · have hbeyond := Nat.not_lt.1 haddr
      rw [loadImageFrom, load_beyond hbeyond, placeBytes_beyond hbeyond]

/-- An image of bytes before the first step is refused at MEM_SIZE exactly if it reaches beyond it. -/
theorem loadImageFrom_refused {addr : Nat} {image : List Nat} {s : State} (hs : s.status = .running)
    (hstarted : s.started = false) (hbytes : ∀ v ∈ image, v ≤ 255) (haddr : addr ≤ s.params.memSize) :
    (loadImageFrom addr image s).2 =
      if addr + image.length ≤ s.params.memSize then none else some s.params.memSize := by
  induction image generalizing addr s with
  | nil => exact (if_pos haddr).symm
  | cons v rest ih =>
    obtain ⟨hv, hrest⟩ := List.forall_mem_cons.1 hbytes
    rw [List.length_cons, ← Nat.succ_add_eq_add_succ]
    rcases Nat.lt_or_eq_of_le haddr with hlt | rfl
    · rw [loadImageFrom, load_admitted hs hstarted hlt hv]
      exact ih hs hstarted hrest hlt
    · rw [loadImageFrom, load_beyond (Nat.le_refl _), if_neg (by omega)]

/-- Settles O56: from address 0, byte `k` is stored at `k`, and the image reaches beyond MEM_SIZE exactly if it is
longer. -/
theorem imageIsLoadedFromZero : Obligations.ImageIsLoadedFromZero := by
  intro image s hs hstarted hbytes
  have hstate := loadImageFrom_state (addr := 0) hs hstarted hbytes
  obtain ⟨m, hm⟩ := placeBytes_eq 0 (image.map (BitVec.ofNat 8)) s
  have hread : ∀ k, m.read k = (placeBytes 0 (image.map (BitVec.ofNat 8)) s).mem.read k := fun k => by
    rw [hm, State.putMem_mem]
  refine ⟨m, hstate.trans hm, fun k hk hbound => ?stored, fun k hout => ?kept, ?refused⟩
  case stored =>
    have hinside := placeBytes_read_inside (a := 0) (s := s) (bytes := image.map (BitVec.ofNat 8))
      (by rwa [List.length_map]) (by rwa [Nat.zero_add])
    rw [Nat.zero_add, List.getElem_map] at hinside
    exact (hread k).trans hinside
  case kept =>
    rw [hread, placeBytes_read_outside]
    rw [List.length_map, Nat.zero_add]
    exact .inr hout
  case refused =>
    have hrefused := loadImageFrom_refused hs hstarted hbytes (Nat.zero_le _)
    rwa [Nat.zero_add] at hrefused

/-! ## Run (60_exceptions.md R153, 40_execution_loop.md R84) -/

/-- Go on with `f` from the next state of an outcome, if there is one. -/
def continueWith (o : Host.Outcome State Fault Refusal) (f : State → Host.Outcome State Fault Refusal) :
    Host.Outcome State Fault Refusal :=
  match o with
  | .next t => f t
  | .fault e => .fault e
  | .refused q => .refused q

@[simp] theorem continueWith_next (t : State) (f : State → Host.Outcome State Fault Refusal) :
    continueWith (.next t) f = f t := rfl

/-- A run of no steps changes no outcome. -/
theorem continueWith_runFor_zero (o : Host.Outcome State Fault Refusal) : continueWith o (runFor 0) = o := by
  cases o <;> rfl

theorem continueWith_assoc (o : Host.Outcome State Fault Refusal) (f g : State → Host.Outcome State Fault Refusal) :
    continueWith (continueWith o f) g = continueWith o fun t => continueWith (f t) g := by
  cases o <;> rfl

/-- A run from a state that is not Running has ended, and answers it. -/
theorem runFor_not_running {s : State} (hs : s.status ≠ .running) (k : Nat) : runFor k s = .next s := by
  cases k with
  | zero => rfl
  | succ k => exact if_neg hs

/-- A run of a running core is a step and then the rest of the run. -/
theorem runFor_succ {s : State} (hs : s.status = .running) (k : Nat) :
    runFor (k + 1) s = continueWith (step s) (runFor k) := by
  rw [runFor, if_pos hs]
  cases step s <;> rfl

/-- A run of `j + k` steps is a run of `j` steps and then one of `k`. -/
theorem runFor_add (j k : Nat) (s : State) : runFor (j + k) s = continueWith (runFor j s) (runFor k) := by
  induction j generalizing s with
  | zero => rw [Nat.zero_add, runFor, continueWith_next]
  | succ j ih =>
    by_cases hs : s.status = .running
    · calc runFor (j + 1 + k) s
          _ = runFor (j + k + 1) s := by rw [Nat.add_right_comm]
          _ = continueWith (step s) (runFor (j + k)) := runFor_succ hs _
          _ = continueWith (step s) fun t => continueWith (runFor j t) (runFor k) := by rw [funext ih]
          _ = continueWith (continueWith (step s) (runFor j)) (runFor k) := (continueWith_assoc _ _ _).symm
          _ = continueWith (runFor (j + 1) s) (runFor k) := by rw [runFor_succ hs]
    · rw [runFor_not_running hs, runFor_not_running hs, continueWith_next, runFor_not_running hs]

/-- Settles O57: a run is its steps one after another, and ends where the status is not Running. -/
theorem runIsRepeatedStep : Obligations.RunIsRepeatedStep := by
  refine ⟨fun s hs => ?oneStep, fun j k s => ?twoRuns, fun k s hs => runFor_not_running hs k⟩
  case oneStep => rw [runFor_succ hs, continueWith_runFor_zero]
  case twoRuns =>
    rw [runFor_add]
    cases runFor j s <;> rfl

/-! ## What the host reads (60_exceptions.md R142, R156) -/

/-- Settles O58: the two tables, row by row. -/
theorem statusCodesAndExitCodes : Obligations.StatusCodesAndExitCodes :=
  ⟨fun _ _ _ _ _ _ _ => ⟨rfl, rfl, rfl, rfl, rfl, rfl, rfl⟩, rfl, rfl, rfl, rfl, rfl, fun _ _ => rfl, rfl⟩

end Sys2Proof.Machine

namespace Sys2Proof.Machine

/-! ## The canonical form of the memory (20_memory.md R45) -/

/-- In rising order, a listed cell is the one its address reads. -/
theorem Memory.read_of_listed {m : Memory} {a : Nat} {v : Byte} (hm : m.Pairwise (fun c d => c.1 < d.1))
    (h : (a, v) ∈ m) : m.read a = some v := by
  induction m with
  | nil => exact absurd h List.not_mem_nil
  | cons c m ih =>
    obtain ⟨hlt, hm⟩ := List.pairwise_cons.1 hm
    rw [Memory.read_cons]
    rcases List.mem_cons.1 h with rfl | h
    · exact if_pos rfl
    · rw [if_neg (hlt _ h).ne, ih hm h]

/-- A canonical memory lists exactly the cells it reads a byte from, other than what an unlisted address reads as. -/
theorem Memory.listed_iff_read {m : Memory} (hm : m.wf) (c : Host.Cell) :
    c ∈ m ↔ m.read c.1 = some c.2 ∧ Memory.unlisted ≠ some c.2 := by
  obtain ⟨hrising, hlisted⟩ := hm
  exact ⟨fun h => ⟨Memory.read_of_listed hrising h, hlisted c h⟩,
    fun ⟨hread, hne⟩ => (Memory.listed_of_read hread).resolve_right hne⟩

/-- Settles O21: what a canonical memory reads decides which cells it lists, and a rising order of the same cells is
the same list. -/
theorem canonicalMemoriesAreEqual : Obligations.CanonicalMemoriesAreEqual := by
  intro m n hm hn hread
  have hlisted : ∀ c, c ∈ m ↔ c ∈ n := fun c => by
    rw [Memory.listed_iff_read hm, Memory.listed_iff_read hn, hread]
  exact List.Pairwise.eq_of_mem_iff (r := Prod.fst ⁻¹'o (· < ·)) hm.1 hn.1 hlisted

end Sys2Proof.Machine
